-- ==== Sys2Proof/Word.lean ====
section
/-! DEFINITION. The storage unit of the machine: the 16-bit Word (10_state.md R10) and its reduction. -/

namespace Sys2Proof

/-- A Word: the only unit of storage, an unsigned 16-bit number (R10). -/
abbrev Word := BitVec 16

/-- A number reduced into the range of a Word, "mod 2^16" (R7, R10). -/
abbrev reduce (n : Nat) : Word := BitVec.ofNat 16 n

end Sys2Proof
end

