-- ==== Sys2Proof/Machine/Flags.lean ====
section
/-! DEFINITION. The results and O values of the arithmetic and shift instructions, and the conditions of the conditional
ones, on unsigned naturals reduced at the end (00_scope.md R7, 41_move_arith.md R108, 42_shift_logic.md R125; log 6). -/

namespace Sys2Proof.Machine

/-- ADD's sum, 0 to 0x1FFFE (R101). -/
def addSum (x y : Word) : Nat := x.toNat + y.toNat

/-- SUB's difference, an integer (R102). -/
def subDiff (x y : Word) : Int := (x.toNat : Int) - (y.toNat : Int)

/-- MUL's product (R103). -/
def mulProduct (x y : Word) : Nat := x.toNat * y.toNat

/-- DIV's quotient; 0 by a zero divisor (R104). -/
def divQuotient (x y : Word) : Word := if y = 0 then 0 else reduce (x.toNat / y.toNat)

/-- DIV's O: the quotient's fraction scaled by 65536; 0 by a zero divisor (R104). -/
def divFraction (x y : Word) : Word := if y = 0 then 0 else reduce ((x.toNat <<< 16) / y.toNat)

/-- MOD's remainder; 0 by a zero divisor (R105). -/
def modRemainder (x y : Word) : Word := if y = 0 then 0 else reduce (x.toNat % y.toNat)

/-- SHL's shifted value, not cut; the count is the whole source (R120, R125). -/
def shlValue (x y : Word) : Nat := x.toNat <<< y.toNat

/-- SHR's result (R121). -/
def shrResult (x y : Word) : Word := reduce (x.toNat >>> y.toNat)

/-- SHR's O: the bits shifted out, left-aligned (R121). -/
def shrOut (x y : Word) : Word := reduce ((x.toNat <<< 16) >>> y.toNat)

/-- Bits 31:16 of a number, `(n >> 16) mod 2^16`: the O of MUL and SHL (R103, R120). -/
def highHalf (n : Nat) : Word := reduce (n >>> 16)

/-- IFE: equal (R141). -/
def condEqual (x y : Word) : Bool := x == y

/-- IFN: not equal (R142). -/
def condDiffer (x y : Word) : Bool := x != y

/-- IFG: strictly greater, unsigned (R143). -/
def condGreater (x y : Word) : Bool := decide (y.toNat < x.toNat)

/-- IFB: some bit in common (R144). -/
def condCommonBit (x y : Word) : Bool := (x &&& y) != 0

end Sys2Proof.Machine
end

