-- ==== Sys2Proof/Syntax.lean ====
section
/-! DEFINITION. The instructions as data: registers, the 64 operand codes, and one constructor of `Instr` per row of
spec/opcode_table.json. An instruction holds what its FIRST word says; a next word stays in memory, where operand
resolution reads it (30_encoding.md R50, 40_step_and_operands.md R72; log 20). -/

namespace Sys2Proof

/-- The eight general registers in the order of their codes 0x00 to 0x07 (10_state.md R11, D16; log 15). -/
inductive Reg where
  | a | b | c | x | y | z | i | j
  deriving DecidableEq, Repr

/-- The operand codes (30_encoding.md R54): exactly 64 inhabitants, one per 6-bit code. -/
inductive Operand where
  /-- 0x00 to 0x07: a register. -/
  | reg (r : Reg)
  /-- 0x08 to 0x0f: `[register]`. -/
  | ind (r : Reg)
  /-- 0x10 to 0x17: `[next word + register]`. -/
  | idx (r : Reg)
  /-- 0x18: POP. -/
  | pop
  /-- 0x19: PEEK. -/
  | peek
  /-- 0x1a: PUSH. -/
  | push
  /-- 0x1b: SP. -/
  | sp
  /-- 0x1c: PC. -/
  | pc
  /-- 0x1d: O. -/
  | o
  /-- 0x1e: `[next word]`. -/
  | abs
  /-- 0x1f: the next word as a literal. -/
  | lit
  /-- 0x20 to 0x3f: the small literals 0 to 31. -/
  | small (n : BitVec 5)
  deriving DecidableEq, Repr

/-- The fifteen basic operations (00_scope.md R2), in the order of the document's list. -/
inductive BasicOp where
  | set | add | sub | mul | div | mod | shl | shr | and | bor | xor | ife | ifn | ifg | ifb
  deriving DecidableEq, Repr

/-- The instructions: one constructor per row of spec/opcode_table.json. A basic instruction has a target and a source
(R51). A non-basic one has one operand (R52). The undefined rows keep their whole non-basic opcode `nb` (R59). -/
inductive Instr where
  | set (t a : Operand)
  | add (t a : Operand)
  | sub (t a : Operand)
  | mul (t a : Operand)
  | div (t a : Operand)
  | mod (t a : Operand)
  | shl (t a : Operand)
  | shr (t a : Operand)
  | and (t a : Operand)
  | bor (t a : Operand)
  | xor (t a : Operand)
  | ife (t a : Operand)
  | ifn (t a : Operand)
  | ifg (t a : Operand)
  | ifb (t a : Operand)
  | jsr (a : Operand)
  | undef00 (a : Operand)
  | undef02to03 (nb : BitVec 6) (a : Operand)
  | undef04to07 (nb : BitVec 6) (a : Operand)
  | undef08to0f (nb : BitVec 6) (a : Operand)
  | undef10to1f (nb : BitVec 6) (a : Operand)
  | undef20to3f (nb : BitVec 6) (a : Operand)
  deriving DecidableEq, Repr

/-- The operand resolved first: a basic instruction's target, a non-basic one's operand (40_step_and_operands.md R70). -/
def Instr.first : Instr → Operand
  | .set t _ | .add t _ | .sub t _ | .mul t _ | .div t _ | .mod t _ | .shl t _ | .shr t _ => t
  | .and t _ | .bor t _ | .xor t _ | .ife t _ | .ifn t _ | .ifg t _ | .ifb t _ => t
  | .jsr a | .undef00 a => a
  | .undef02to03 _ a | .undef04to07 _ a | .undef08to0f _ a | .undef10to1f _ a | .undef20to3f _ a => a

/-- The operand resolved second: a basic instruction's source; a non-basic one has none (R70). -/
def Instr.second : Instr → Option Operand
  | .set _ a | .add _ a | .sub _ a | .mul _ a | .div _ a | .mod _ a | .shl _ a | .shr _ a => some a
  | .and _ a | .bor _ a | .xor _ a | .ife _ a | .ifn _ a | .ifg _ a | .ifb _ a => some a
  | .jsr _ | .undef00 _ => none
  | .undef02to03 _ _ | .undef04to07 _ _ | .undef08to0f _ _ | .undef10to1f _ _ | .undef20to3f _ _ => none

/-- The eleven instructions that write their target (30_encoding.md R61). -/
def Instr.writesTarget : Instr → Bool
  | .set _ _ | .add _ _ | .sub _ _ | .mul _ _ | .div _ _ | .mod _ _ | .shl _ _ | .shr _ _ => true
  | .and _ _ | .bor _ _ | .xor _ _ => true
  | .ife _ _ | .ifn _ _ | .ifg _ _ | .ifb _ _ => false
  | .jsr _ | .undef00 _ => false
  | .undef02to03 _ _ | .undef04to07 _ _ | .undef08to0f _ _ | .undef10to1f _ _ | .undef20to3f _ _ => false

/-- JSR, the one defined non-basic instruction (44_nonbasic_jsr.md R150). -/
def Instr.isJsr : Instr → Bool
  | .jsr _ => true
  | .set _ _ | .add _ _ | .sub _ _ | .mul _ _ | .div _ _ | .mod _ _ | .shl _ _ | .shr _ _ => false
  | .and _ _ | .bor _ _ | .xor _ _ | .ife _ _ | .ifn _ _ | .ifg _ _ | .ifb _ _ | .undef00 _ => false
  | .undef02to03 _ _ | .undef04to07 _ _ | .undef08to0f _ _ | .undef10to1f _ _ | .undef20to3f _ _ => false

/-- An operand without a location: the next-word literal and the small literals (R54, "literal" of R9). -/
def Operand.isLiteral : Operand → Bool
  | .lit | .small _ => true
  | .reg _ | .ind _ | .idx _ | .pop | .peek | .push | .sp | .pc | .o | .abs => false

end Sys2Proof
end

