-- ==== Sys2Proof/WellFormed.lean ====
section
/-! DEFINITION. Which terms of `Instr` are encodings of the hardware: an undefined row's non-basic opcode lies in the
row's own range (30_encoding.md R57, R59; spec/opcode_table.json). Every other field is exact by its type. -/

namespace Sys2Proof

/-- A non-basic opcode from `lo` to `hi`, both included. -/
def nbWithin (lo hi : Nat) (nb : BitVec 6) : Bool := decide (lo ≤ nb.toNat) && decide (nb.toNat ≤ hi)

/-- The check of one instruction. A literal target is well formed: it encodes, and faults when executed (R61). -/
def Instr.wellFormed : Instr → Bool
  | .set _ _ | .add _ _ | .sub _ _ | .mul _ _ | .div _ _ | .mod _ _ | .shl _ _ | .shr _ _ => true
  | .and _ _ | .bor _ _ | .xor _ _ | .ife _ _ | .ifn _ _ | .ifg _ _ | .ifb _ _ => true
  | .jsr _ | .undef00 _ => true
  | .undef02to03 nb _ => nbWithin 0x02 0x03 nb
  | .undef04to07 nb _ => nbWithin 0x04 0x07 nb
  | .undef08to0f nb _ => nbWithin 0x08 0x0f nb
  | .undef10to1f nb _ => nbWithin 0x10 0x1f nb
  | .undef20to3f nb _ => nbWithin 0x20 0x3f nb

end Sys2Proof
end

