-- ==== Sys2Proof/Decode.lean ====
section
/-! DEFINITION. Decoding a first word into an instruction and encoding it back (30_encoding.md). Decoding is total: every
one of the 65536 first words is an instruction (R62), so there is nothing to reject. The opcode numbers stand in one
table, `opmap` and `jsrNumber` (R56, R57, D1; log 2). -/

namespace Sys2Proof

/-- `w[3:0]`, the opcode field (R51, R52). -/
def opcodeField (w : Word) : BitVec 4 := w.extractLsb' 0 4

/-- `w[9:4]`, a basic instruction's target or a non-basic one's opcode (R51, R52). -/
def targetField (w : Word) : BitVec 6 := w.extractLsb' 4 6

/-- `w[15:10]`, a basic instruction's source or a non-basic one's operand (R51, R52). -/
def sourceField (w : Word) : BitVec 6 := w.extractLsb' 10 6

/-- A first word from its three fields: `(source << 10) | (target << 4) | opcode` (R51, R52). -/
def joinFields (source target : BitVec 6) (opcode : BitVec 4) : Word :=
  (source.setWidth 16 <<< 10) ||| (target.setWidth 16 <<< 4) ||| opcode.setWidth 16

/-- The register with a code's three low bits (10_state.md R11). -/
def Reg.ofIndex (n : BitVec 3) : Reg :=
  match n.toNat with
  | 0 => .a
  | 1 => .b
  | 2 => .c
  | 3 => .x
  | 4 => .y
  | 5 => .z
  | 6 => .i
  | _ => .j

/-- A register's code, 0 to 7 (10_state.md R11). -/
def Reg.index : Reg → BitVec 6
  | .a => 0
  | .b => 1
  | .c => 2
  | .x => 3
  | .y => 4
  | .z => 5
  | .i => 6
  | .j => 7

/-- The operand with a 6-bit code (R54). -/
def Operand.ofCode (c : BitVec 6) : Operand :=
  if c.toNat < 0x08 then .reg (.ofIndex (c.extractLsb' 0 3))
  else if c.toNat < 0x10 then .ind (.ofIndex (c.extractLsb' 0 3))
  else if c.toNat < 0x18 then .idx (.ofIndex (c.extractLsb' 0 3))
  else if c.toNat < 0x20 then
    match c.toNat with
    | 0x18 => .pop
    | 0x19 => .peek
    | 0x1a => .push
    | 0x1b => .sp
    | 0x1c => .pc
    | 0x1d => .o
    | 0x1e => .abs
    | _ => .lit
  else .small (c.extractLsb' 0 5)

/-- The 6-bit code of an operand (R54). -/
def Operand.code : Operand → BitVec 6
  | .reg r => r.index
  | .ind r => 0x08 + r.index
  | .idx r => 0x10 + r.index
  | .pop => 0x18
  | .peek => 0x19
  | .push => 0x1a
  | .sp => 0x1b
  | .pc => 0x1c
  | .o => 0x1d
  | .abs => 0x1e
  | .lit => 0x1f
  | .small n => 0x20 + n.setWidth 6

/-- `extra(code)`: how many next words an operand consumes (R50). -/
def Operand.extra : Operand → Nat
  | .idx _ | .abs | .lit => 1
  | .reg _ | .ind _ | .pop | .peek | .push | .sp | .pc | .o | .small _ => 0

/-- The length of an instruction in words, 1 to 3: from the operand codes only (R50). -/
def Instr.length (i : Instr) : Nat :=
  1 + i.first.extra + match i.second with
    | some a => a.extra
    | none => 0

/-- The constructor of a basic operation. -/
def Instr.ofBasic : BasicOp → Operand → Operand → Instr
  | .set => .set
  | .add => .add
  | .sub => .sub
  | .mul => .mul
  | .div => .div
  | .mod => .mod
  | .shl => .shl
  | .shr => .shr
  | .and => .and
  | .bor => .bor
  | .xor => .xor
  | .ife => .ife
  | .ifn => .ifn
  | .ifg => .ifg
  | .ifb => .ifb

/-- OPMAP, the number of each basic operation (R56, D1). PRESUMED: the numbers are from general knowledge, not in the
source (log 2). -/
def opmap : List (BitVec 4 × BasicOp) :=
  [(0x1, .set), (0x2, .add), (0x3, .sub), (0x4, .mul), (0x5, .div), (0x6, .mod), (0x7, .shl), (0x8, .shr),
   (0x9, .and), (0xa, .bor), (0xb, .xor), (0xc, .ife), (0xd, .ifn), (0xe, .ifg), (0xf, .ifb)]

/-- The non-basic opcode of JSR (R57, D1). PRESUMED, as `opmap` (log 2). -/
def jsrNumber : BitVec 6 := 0x01

/-- The basic operation with an opcode; opcode 0 has none and selects the non-basic format (R52). -/
def BasicOp.ofNumber (n : BitVec 4) : Option BasicOp := (opmap.find? fun row => row.1 == n).map (·.2)

/-- The opcode of a basic operation, from the same table. -/
def BasicOp.number (op : BasicOp) : BitVec 4 := ((opmap.find? fun row => row.2 == op).map (·.1)).getD 0

/-- The instruction of a non-basic word (R57): JSR, or the undefined row its opcode lies in (R59). -/
def Instr.ofNonBasic (nb : BitVec 6) (a : Operand) : Instr :=
  if nb = jsrNumber then .jsr a
  else if nb.toNat < 0x02 then .undef00 a
  else if nb.toNat < 0x04 then .undef02to03 nb a
  else if nb.toNat < 0x08 then .undef04to07 nb a
  else if nb.toNat < 0x10 then .undef08to0f nb a
  else if nb.toNat < 0x20 then .undef10to1f nb a
  else .undef20to3f nb a

/-- The instruction of a first word, for every word (R51, R52, R62). -/
def decode (w : Word) : Instr :=
  match BasicOp.ofNumber (opcodeField w) with
  | some op => .ofBasic op (.ofCode (targetField w)) (.ofCode (sourceField w))
  | none => .ofNonBasic (targetField w) (.ofCode (sourceField w))

/-- A basic instruction's first word (R51). -/
def basicWord (op : BasicOp) (t a : Operand) : Word := joinFields a.code t.code op.number

/-- A non-basic instruction's first word (R52). -/
def nonBasicWord (nb : BitVec 6) (a : Operand) : Word := joinFields a.code nb 0

/-- The first word of an instruction (R51, R52). Its next words are whatever the program places after it. -/
def encode : Instr → Word
  | .set t a => basicWord .set t a
  | .add t a => basicWord .add t a
  | .sub t a => basicWord .sub t a
  | .mul t a => basicWord .mul t a
  | .div t a => basicWord .div t a
  | .mod t a => basicWord .mod t a
  | .shl t a => basicWord .shl t a
  | .shr t a => basicWord .shr t a
  | .and t a => basicWord .and t a
  | .bor t a => basicWord .bor t a
  | .xor t a => basicWord .xor t a
  | .ife t a => basicWord .ife t a
  | .ifn t a => basicWord .ifn t a
  | .ifg t a => basicWord .ifg t a
  | .ifb t a => basicWord .ifb t a
  | .jsr a => nonBasicWord jsrNumber a
  | .undef00 a => nonBasicWord 0x00 a
  | .undef02to03 nb a => nonBasicWord nb a
  | .undef04to07 nb a => nonBasicWord nb a
  | .undef08to0f nb a => nonBasicWord nb a
  | .undef10to1f nb a => nonBasicWord nb a
  | .undef20to3f nb a => nonBasicWord nb a

/-- Word `k` of an instruction whose bits are `w`, numbered as spec/opcode_table.json numbers them: the first word is the
low 16 bits, the next word the 16 bits above it, and every bit from `nbits` on is 0. -/
def tableWord (nbits w k : Nat) : Word := reduce ((w % 2 ^ nbits) >>> (16 * k))

/-- What the decoder reads from an instruction whose bits are `w`. It reads the first word only (R50). -/
def decodeTableWord (nbits w : Nat) : Option Instr := some (decode (tableWord nbits w 0))

end Sys2Proof
end

