-- ==== Sys2Proof/Config.lean ====
section
/-! DEFINITION. The parameters of the hardware (00_scope.md R6) and the platform's address map (20_memory.md R43). -/

namespace Sys2Proof.Config

/-- CAPACITY, the number of memory words (R6, R20). -/
def capacity : Nat := 65536

/-- One less than BATCH_STEPS. The spec leaves the batch size open (D15: "a positive natural the model may take as a
parameter"), so this is a constant without a body: no proof can see its value (log 14). -/
opaque batchPred : Nat

/-- BATCH_STEPS, the most steps one batch of a run makes: some positive natural (R6, R168, D15; log 14). -/
def batchSteps : Nat := batchPred + 1

/-- Who gives a platform window its meaning (R43). All of them are outside the CORE. -/
inductive WindowUse where
  | networkIn
  | networkOut
  | display
  | keyboard
  deriving DecidableEq, Repr

/-- A range of addresses that a collaborator outside the CORE gives a meaning to. -/
structure Window where
  use : WindowUse
  base : Nat
  size : Nat
  deriving DecidableEq, Repr

/-- The windows of the platform the document describes (R43). The CORE enforces none of them: to it they are plain
memory, and only a collaborator's view of the observe port reads this map (log 21). -/
def platformMap : List Window :=
  [⟨.networkIn, 0x6000, 128⟩, ⟨.networkOut, 0x6080, 128⟩, ⟨.display, 0x8000, 384⟩, ⟨.keyboard, 0x9000, 16⟩]

end Sys2Proof.Config
end

