-- ==== Sys2Proof/Machine/State.lean ====
section
/-! DEFINITION. The state of the machine as plain data (10_state.md), the three faults (60_exceptions.md R180), the one
refusal, and the state after reset (10_state.md R25). -/

namespace Sys2Proof.Machine

/-- One word of memory at an address. The unit is the word, not the byte: the machine has nothing smaller (20_memory.md
R35: "A model should represent memory as a function from 16-bit addresses to 16-bit words and not as bytes"; log 3). -/
abbrev WordCell := Nat × Word

/-- The memory (R20): addresses strictly rising, below capacity, and no word 0 listed, since an unlisted address reads
as 0, which is what reset leaves everywhere (R25). `Memory.wf` says this form holds. -/
abbrev Memory := List WordCell

/-- The events of the observe port (20_memory.md R38): a 16-bit address and a 16-bit value. -/
inductive Event where
  /-- A read: the word read at the address. -/
  | rd (address value : Word)
  /-- A write: the word committed at the address. -/
  | wr (address value : Word)
  deriving DecidableEq, Repr

/-- The eight general registers (R11). -/
structure Regs where
  a : Word
  b : Word
  c : Word
  x : Word
  y : Word
  z : Word
  i : Word
  j : Word
  deriving DecidableEq, Repr

/-- Everything the spec gives the machine between two steps. -/
structure State where
  /-- A, B, C, X, Y, Z, I, J (R11). -/
  regs : Regs
  /-- SP (R16). -/
  sp : Word
  /-- PC (R12). -/
  pc : Word
  /-- O, the overflow register (R17). -/
  o : Word
  /-- The skip flag (R18). -/
  skip : Bool
  /-- The step counter (R23). It never wraps (D11; log 10). -/
  steps : Nat
  /-- The 65536 words (R20). -/
  mem : Memory
  /-- What the observe port has published so far, oldest first (20_memory.md R38). DESIGN CHOICE: an output of the block,
  kept in the state so that claims can speak of it (log 16). -/
  trace : List Event
  /-- How many step-completed notifications the host has been given (50_interfaces.md R170). DESIGN CHOICE: an output,
  kept as a count since the signal has no payload (log 17). -/
  notified : Nat
  /-- Whether a run schedule is active (50_interfaces.md R168, R169). Only the control port reads or writes it (log 17). -/
  running : Bool
  deriving DecidableEq, Repr

/-- The faults (60_exceptions.md R180, R184). Each carries what the host is told and the state the aborted step leaves
(R184's table, D7; log 7), and no number (D14; log 13). A fault ends a run. -/
inductive Fault where
  /-- Raised by a read or write at 0x10000 or above (R181): by the Cpu only while it resolves operands, by the host on any
  access. Safe: the spec raises it too. The unreduced sums behind the Cpu's are the spec's decision D3 (log 4). -/
  | outOfRange (address : Nat) (left : State)
  /-- Raised by a write of a value above 0xFFFF (R182): by the host only. Safe: the spec raises it too. -/
  | valueTooLarge (value : Nat) (left : State)
  /-- Raised by the write of a literal target (R183), with the target's operand code. Safe: the spec raises it too. -/
  | invalidTarget (code : BitVec 6) (left : State)
  deriving DecidableEq, Repr

/-- The state an aborted step leaves behind (R184). -/
def Fault.left : Fault → State
  | .outOfRange _ s => s
  | .valueTooLarge _ s => s
  | .invalidTarget _ s => s

/-- Why an instruction has no meaning. No arm of `exec` answers this: every instruction has its meaning. -/
inductive Refusal where
  /-- Raised by an arm of `exec` whose instruction is not modelled yet. Safe: the model stops. -/
  | notModelled (mnemonic : String)
  deriving DecidableEq, Repr

/-- The state after reset, the construction of a machine (R25, 70_reset_and_hazards.md R200): memory, registers, flag and
counter zero, nothing published, nothing running. The values of A to J, O, skip and steps are the spec's decision D2
(log 1). -/
def State.reset : State where
  regs := ⟨0, 0, 0, 0, 0, 0, 0, 0⟩
  sp := 0
  pc := 0
  o := 0
  skip := false
  steps := 0
  mem := []
  trace := []
  notified := 0
  running := false

end Sys2Proof.Machine
end

