-- ==== Sys2Proof/Machine/Ops.lean ====
section
/-! DEFINITION. The named operations over memory and registers, raising a fault, and the end of a step. Every meaning is
written over these; nothing else writes the state during a step. -/

namespace Sys2Proof.Machine

/-- The word at an address. An unlisted address holds 0 (10_state.md R25). -/
def Memory.load : Memory → Nat → Word
  | [], _ => 0
  | (k, w) :: m, a => if k = a then w else Memory.load m a

/-- A cell put at its place in address order, over the cell of the same address if there is one. -/
def Memory.insertCell : Memory → Nat → Word → Memory
  | [], a, v => [(a, v)]
  | (k, w) :: m, a, v =>
    if a < k then (a, v) :: (k, w) :: m
    else if a = k then (a, v) :: m
    else (k, w) :: Memory.insertCell m a v

/-- The memory with `v` at `a`. Storing 0 unlists the address, so the form stays canonical (log 3). -/
def Memory.store (m : Memory) (a : Nat) (v : Word) : Memory :=
  if v = 0 then m.filter fun c => c.1 != a else m.insertCell a v

/-- The canonical form: addresses strictly rising and below capacity, no word 0 listed. -/
def Memory.wf : Memory → Bool
  | [] => true
  | (k, w) :: m => decide (k < Config.capacity) && w != 0 && m.all (fun c => decide (k < c.1)) && Memory.wf m

/-- A general register's value (R11). -/
def Regs.get (g : Regs) : Reg → Word
  | .a => g.a
  | .b => g.b
  | .c => g.c
  | .x => g.x
  | .y => g.y
  | .z => g.z
  | .i => g.i
  | .j => g.j

/-- The registers with one of them written (R11). -/
def Regs.set (g : Regs) (r : Reg) (v : Word) : Regs :=
  match r with
  | .a => { g with a := v }
  | .b => { g with b := v }
  | .c => { g with c := v }
  | .x => { g with x := v }
  | .y => { g with y := v }
  | .z => { g with z := v }
  | .i => { g with i := v }
  | .j => { g with j := v }

/-- A general register written. -/
def State.setReg (s : State) (r : Reg) (v : Word) : State := { s with regs := s.regs.set r v }

/-- SP written. -/
def State.setSp (s : State) (v : Word) : State := { s with sp := v }

/-- PC written. -/
def State.setPc (s : State) (v : Word) : State := { s with pc := v }

/-- O written. -/
def State.setO (s : State) (v : Word) : State := { s with o := v }

/-- The skip flag written. -/
def State.setSkip (s : State) (b : Bool) : State := { s with skip := b }

/-- The run schedule started or cancelled (50_interfaces.md R168, R169). -/
def State.setRunning (s : State) (b : Bool) : State := { s with running := b }

/-- One event published on the observe port (20_memory.md R38). -/
def State.publish (s : State) (e : Event) : State := { s with trace := s.trace ++ [e] }

/-- One word of memory written, without an event. -/
def State.poke (s : State) (a : Nat) (v : Word) : State := { s with mem := s.mem.store a v }

/-- `raise F(info)`: what taking a fault does (60_exceptions.md R184). The step aborts at once. Nothing is saved, no mode
changes, no vector is fetched, PC is not redirected and no handler runs: the state is left as it stands, and the fault
goes to the host. There is no return from a fault (R185). -/
def raise {α : Type} (fault : State → Fault) (s : State) : Except Fault α := .error (fault s)

/-- `MemRead(a, 1)` (20_memory.md R31). -/
def memRead (a : Nat) (s : State) : Except Fault (Word × State) :=
  if Config.capacity ≤ a then raise (.outOfRange a) s
  else .ok (s.mem.load a, s.publish (.rd (reduce a) (s.mem.load a)))

/-- `MemWrite(a, 1, v)` (20_memory.md R32): the value is checked before the address, and the event follows the store. -/
def memWrite (a v : Nat) (s : State) : Except Fault State :=
  if 0xFFFF < v then raise (.valueTooLarge v) s
  else if Config.capacity ≤ a then raise (.outOfRange a) s
  else .ok ((s.poke a (reduce v)).publish (.wr (reduce a) (reduce v)))

/-- `MemReset()` (20_memory.md R33): every word 0, nothing published, no other state touched. -/
def memReset (s : State) : State := { s with mem := [] }

/-- Action 2 of the step, the fetch of the first word (40_step_and_operands.md R71). -/
def fetch (s : State) : Except Fault (Word × State) := memRead s.pc.toNat s

/-- Actions 6 and 7 of the step (R70, R87): PC advances by the length unless the instruction wrote it (10_state.md R13),
the step is counted and the host is notified (R23, 50_interfaces.md R170). The stored sum is reduced (D4; log 19). -/
def finish (len : Nat) (pcSet : Bool) (s : State) : State :=
  { s with
    pc := if pcSet then s.pc else reduce (s.pc.toNat + len)
    steps := s.steps + 1
    notified := s.notified + 1 }

end Sys2Proof.Machine
end

