-- ==== Sys2Proof/Machine/Operands.lean ====
section
/-! DEFINITION. Operand resolution for every operand code, stack effects, the write contract, and the part of the step
algorithm that every instruction shares (40_step_and_operands.md). -/

namespace Sys2Proof.Machine

/-- `loc`: where a resolved operand can be written (00_scope.md R8). -/
inductive Loc where
  | reg (r : Reg)
  | sp
  | pc
  | o
  | mem (a : Word)
  | none
  deriving DecidableEq, Repr

/-- A resolved operand, `{code, loc, val, extra}` (40_step_and_operands.md section 2). -/
structure Resolved where
  code : BitVec 6
  loc : Loc
  val : Word
  extra : Bool
  deriving DecidableEq, Repr

/-- How many next words the resolution consumed. -/
def Resolved.words (op : Resolved) : Nat := if op.extra then 1 else 0

/-- `NextWord()`: the read at `PC + len`, a sum that is not reduced (R72's section, 20_memory.md R44; log 4). -/
def nextWord (len : Nat) (s : State) : Except Fault (Word × State) := memRead (s.pc.toNat + len) s

/-- A memory operand at the address `a`: its word is read now, whether or not the instruction needs it (R83; log 9). -/
def memOperand (code : BitVec 6) (a : Nat) (extra : Bool) (s : State) : Except Fault (Resolved × State) :=
  match memRead a s with
  | .error f => .error f
  | .ok (v, s1) => .ok (⟨code, .mem (reduce a), v, extra⟩, s1)

/-- `Resolve(code)`, with `len` words of the instruction consumed so far (R73 to R82). Only the observe port changes. -/
def resolve (op : Operand) (len : Nat) (s : State) : Except Fault (Resolved × State) :=
  match op with
  | .reg r => .ok (⟨op.code, .reg r, s.regs.get r, false⟩, s)
  | .ind r => memOperand op.code (s.regs.get r).toNat false s
  | .idx r =>
    match nextWord len s with
    | .error f => .error f
    | .ok (nw, s1) => memOperand op.code (nw.toNat + (s1.regs.get r).toNat) true s1
  | .pop => memOperand op.code s.sp.toNat false s
  | .peek => memOperand op.code s.sp.toNat false s
  | .push => memOperand op.code (s.sp - 1).toNat false s
  | .sp => .ok (⟨op.code, .sp, s.sp, false⟩, s)
  | .pc => .ok (⟨op.code, .pc, s.pc, false⟩, s)
  | .o => .ok (⟨op.code, .o, s.o, false⟩, s)
  | .abs =>
    match nextWord len s with
    | .error f => .error f
    | .ok (nw, s1) => memOperand op.code nw.toNat true s1
  | .lit =>
    match nextWord len s with
    | .error f => .error f
    | .ok (nw, s1) => .ok (⟨op.code, .none, nw, true⟩, s1)
  | .small n => .ok (⟨op.code, .none, n.setWidth 16, false⟩, s)

/-- `StackEffect(op)`: POP moves SP up by one, PUSH down by one, mod 2^16 (R85; log 19). -/
def stackEffect (op : Resolved) (s : State) : State :=
  if op.code = 0x18 then s.setSp (s.sp + 1)
  else if op.code = 0x1a then s.setSp (s.sp - 1)
  else s

/-- `WriteOperand(op, v)` (R86). The Bool is `pc_set`: whether PC was written. -/
def writeOperand (op : Resolved) (v : Word) (s : State) : Except Fault (State × Bool) :=
  match op.loc with
  | .reg r => .ok (s.setReg r v, false)
  | .sp => .ok (s.setSp v, false)
  | .o => .ok (s.setO v, false)
  | .pc => .ok (s.setPc v, true)
  | .mem a =>
    match memWrite a.toNat v.toNat s with
    | .error f => .error f
    | .ok s1 => .ok (s1, false)
  | .none => raise (.invalidTarget op.code) s

/-- `WriteOperand(op, v)`, then O written: the order of MUL, DIV, SHL and SHR (41_move_arith.md R107; log 5). -/
def writeThenO (op : Resolved) (v o : Word) (s : State) : Except Fault (State × Bool) :=
  match writeOperand op v s with
  | .error f => .error f
  | .ok (s1, pcSet) => .ok (s1.setO o, pcSet)

/-- The end of the step after the instruction's own effect: actions 6 and 7, or the fault (R70, R90). -/
def settle (len : Nat) (r : Except Fault (State × Bool)) : Host.Outcome State Fault Refusal :=
  match r with
  | .error f => .fault f
  | .ok (s, pcSet) => .next (finish len pcSet s)

/-- Actions 3 to 7 of the step for a basic instruction (R70): the target is resolved, then the source; a pending skip is
cleared and nothing else happens (R84); otherwise the stack effects, target then source, and the instruction's `body`. -/
def runBasic (t a : Operand) (body : Resolved → Resolved → State → Except Fault (State × Bool)) (s : State) :
    Host.Outcome State Fault Refusal :=
  match resolve t 1 s with
  | .error f => .fault f
  | .ok (rt, s1) =>
    match resolve a (1 + rt.words) s1 with
    | .error f => .fault f
    | .ok (ra, s2) =>
      if s2.skip then .next (finish (1 + rt.words + ra.words) false (s2.setSkip false))
      else settle (1 + rt.words + ra.words) (body rt ra (stackEffect ra (stackEffect rt s2)))

/-- Actions 3 to 7 of the step for a non-basic instruction (R70). The `body` is given the length and does the operand's
stack effect itself, since an undefined opcode has none (R85; log 8). -/
def runNonBasic (a : Operand) (body : Nat → Resolved → State → Except Fault (State × Bool)) (s : State) :
    Host.Outcome State Fault Refusal :=
  match resolve a 1 s with
  | .error f => .fault f
  | .ok (ra, s1) =>
    if s1.skip then .next (finish (1 + ra.words) false (s1.setSkip false))
    else settle (1 + ra.words) (body (1 + ra.words) ra s1)

end Sys2Proof.Machine
end

