-- ==== Sys2Proof/Machine/CondSkip.lean ====
section
/-! DEFINITION. IFE, IFN, IFG, IFB (43_conditional_skip.md). -/

namespace Sys2Proof.Machine

/-- What the four share (R140): a false condition sets the skip flag, a true one leaves it; nothing else is written. -/
def skipUnless (holds : Bool) (s : State) : Except Fault (State × Bool) :=
  if holds then .ok (s, false) else .ok (s.setSkip true, false)

/-- IFE (R141). -/
def execIfe (t a : Operand) (s : State) : Host.Outcome State Fault Refusal :=
  runBasic t a (fun rt ra s => skipUnless (condEqual rt.val ra.val) s) s

/-- IFN (R142). -/
def execIfn (t a : Operand) (s : State) : Host.Outcome State Fault Refusal :=
  runBasic t a (fun rt ra s => skipUnless (condDiffer rt.val ra.val) s) s

/-- IFG, unsigned and strict (R143). -/
def execIfg (t a : Operand) (s : State) : Host.Outcome State Fault Refusal :=
  runBasic t a (fun rt ra s => skipUnless (condGreater rt.val ra.val) s) s

/-- IFB, true when some bit is common (R144). -/
def execIfb (t a : Operand) (s : State) : Host.Outcome State Fault Refusal :=
  runBasic t a (fun rt ra s => skipUnless (condCommonBit rt.val ra.val) s) s

end Sys2Proof.Machine
end

