-- ==== Sys2Proof/Machine/MoveArith.lean ====
section
/-! DEFINITION. SET, ADD, SUB, MUL, DIV, MOD (41_move_arith.md). -/

namespace Sys2Proof.Machine

/-- SET (R100). -/
def execSet (t a : Operand) (s : State) : Host.Outcome State Fault Refusal :=
  runBasic t a (fun rt ra s => writeOperand rt ra.val s) s

/-- ADD's own effect (R101): O is 1 on a carry and left as it was without one; O is written before the target (R107). -/
def addBody (rt ra : Resolved) (s : State) : Except Fault (State × Bool) :=
  if 0xFFFF < addSum rt.val ra.val then writeOperand rt (reduce (addSum rt.val ra.val - 0x10000)) (s.setO 1)
  else writeOperand rt (reduce (addSum rt.val ra.val)) s

/-- ADD (R101). -/
def execAdd (t a : Operand) (s : State) : Host.Outcome State Fault Refusal := runBasic t a addBody s

/-- SUB's own effect (R102): O is 0xFFFF on a borrow and left as it was without one; O is written before the target
(R107). -/
def subBody (rt ra : Resolved) (s : State) : Except Fault (State × Bool) :=
  if subDiff rt.val ra.val < 0 then
    writeOperand rt (reduce (0x10000 + subDiff rt.val ra.val).toNat) (s.setO 0xFFFF)
  else writeOperand rt (reduce (subDiff rt.val ra.val).toNat) s

/-- SUB (R102). -/
def execSub (t a : Operand) (s : State) : Host.Outcome State Fault Refusal := runBasic t a subBody s

/-- MUL (R103): the low half to the target, then the high half to O. -/
def execMul (t a : Operand) (s : State) : Host.Outcome State Fault Refusal :=
  runBasic t a
    (fun rt ra s => writeThenO rt (reduce (mulProduct rt.val ra.val)) (highHalf (mulProduct rt.val ra.val)) s) s

/-- DIV (R104): the quotient to the target, then the scaled fraction to O. -/
def execDiv (t a : Operand) (s : State) : Host.Outcome State Fault Refusal :=
  runBasic t a
    (fun rt ra s => writeThenO rt (divQuotient rt.val ra.val) (divFraction rt.val ra.val) s) s

/-- MOD (R105): O is not written. -/
def execMod (t a : Operand) (s : State) : Host.Outcome State Fault Refusal :=
  runBasic t a (fun rt ra s => writeOperand rt (modRemainder rt.val ra.val) s) s

end Sys2Proof.Machine
end

