-- ==== Sys2Proof/Machine/NonBasic.lean ====
section
/-! DEFINITION. JSR and the undefined non-basic opcodes (44_nonbasic_jsr.md). -/

namespace Sys2Proof.Machine

/-- JSR's own effect (R150), the operand's stack effect first: SP down by one, the return address `PC + len` mod 2^16
stored there, PC written (D4; log 19). -/
def callBody (len : Nat) (ra : Resolved) (s : State) : Except Fault (State × Bool) :=
  let s1 := stackEffect ra s
  let s2 := s1.setSp (s1.sp - 1)
  match memWrite s2.sp.toNat (reduce (s2.pc.toNat + len)).toNat s2 with
  | .error f => .error f
  | .ok s3 => .ok (s3.setPc ra.val, true)

/-- An undefined opcode's own effect: none, not even the operand's stack effect (R151, D8; log 8). -/
def noEffect (_len : Nat) (_ra : Resolved) (s : State) : Except Fault (State × Bool) := .ok (s, false)

/-- JSR (R150). -/
def execJsr (a : Operand) (s : State) : Host.Outcome State Fault Refusal := runNonBasic a callBody s

/-- The undefined non-basic opcode 0x00, the zero word among its words (R151, 30_encoding.md R60). -/
def execUndef00 (a : Operand) (s : State) : Host.Outcome State Fault Refusal := runNonBasic a noEffect s

/-- The undefined non-basic opcodes 0x02 and 0x03 (R151). -/
def execUndef02to03 (a : Operand) (s : State) : Host.Outcome State Fault Refusal := runNonBasic a noEffect s

/-- The undefined non-basic opcodes 0x04 to 0x07 (R151). -/
def execUndef04to07 (a : Operand) (s : State) : Host.Outcome State Fault Refusal := runNonBasic a noEffect s

/-- The undefined non-basic opcodes 0x08 to 0x0f (R151). -/
def execUndef08to0f (a : Operand) (s : State) : Host.Outcome State Fault Refusal := runNonBasic a noEffect s

/-- The undefined non-basic opcodes 0x10 to 0x1f (R151). -/
def execUndef10to1f (a : Operand) (s : State) : Host.Outcome State Fault Refusal := runNonBasic a noEffect s

/-- The undefined non-basic opcodes 0x20 to 0x3f (R151). -/
def execUndef20to3f (a : Operand) (s : State) : Host.Outcome State Fault Refusal := runNonBasic a noEffect s

end Sys2Proof.Machine
end

