-- ==== Sys2Proof/Machine/ShiftLogic.lean ====
section
/-! DEFINITION. SHL, SHR, AND, BOR, XOR (42_shift_logic.md). -/

namespace Sys2Proof.Machine

/-- SHL (R120): the low half of the shifted value to the target, then bits 31:16 to O. -/
def execShl (t a : Operand) (s : State) : Host.Outcome State Fault Refusal :=
  runBasic t a
    (fun rt ra s => writeThenO rt (reduce (shlValue rt.val ra.val)) (highHalf (shlValue rt.val ra.val)) s) s

/-- SHR (R121): the shifted value to the target, then the bits shifted out to O. -/
def execShr (t a : Operand) (s : State) : Host.Outcome State Fault Refusal :=
  runBasic t a (fun rt ra s => writeThenO rt (shrResult rt.val ra.val) (shrOut rt.val ra.val) s) s

/-- AND (R122). -/
def execAnd (t a : Operand) (s : State) : Host.Outcome State Fault Refusal :=
  runBasic t a (fun rt ra s => writeOperand rt (rt.val &&& ra.val) s) s

/-- BOR (R123). -/
def execBor (t a : Operand) (s : State) : Host.Outcome State Fault Refusal :=
  runBasic t a (fun rt ra s => writeOperand rt (rt.val ||| ra.val) s) s

/-- XOR (R124). -/
def execXor (t a : Operand) (s : State) : Host.Outcome State Fault Refusal :=
  runBasic t a (fun rt ra s => writeOperand rt (rt.val ^^^ ra.val) s) s

end Sys2Proof.Machine
end

