-- ==== Sys2Proof/Machine/Dispatch.lean ====
section
/-! DEFINITION. One arm per instruction: actions 3 to 7 of the step (40_step_and_operands.md R70). -/

namespace Sys2Proof.Machine

def exec (i : Instr) (s : State) : Host.Outcome State Fault Refusal :=
  match i with
  -- move and arithmetic
  | .set t a => Sys2Proof.Machine.execSet t a s
  | .add t a => Sys2Proof.Machine.execAdd t a s
  | .sub t a => Sys2Proof.Machine.execSub t a s
  | .mul t a => Sys2Proof.Machine.execMul t a s
  | .div t a => Sys2Proof.Machine.execDiv t a s
  | .mod t a => Sys2Proof.Machine.execMod t a s
  -- shift and bitwise
  | .shl t a => Sys2Proof.Machine.execShl t a s
  | .shr t a => Sys2Proof.Machine.execShr t a s
  | .and t a => Sys2Proof.Machine.execAnd t a s
  | .bor t a => Sys2Proof.Machine.execBor t a s
  | .xor t a => Sys2Proof.Machine.execXor t a s
  -- conditional skip
  | .ife t a => Sys2Proof.Machine.execIfe t a s
  | .ifn t a => Sys2Proof.Machine.execIfn t a s
  | .ifg t a => Sys2Proof.Machine.execIfg t a s
  | .ifb t a => Sys2Proof.Machine.execIfb t a s
  -- non-basic
  | .jsr a => Sys2Proof.Machine.execJsr a s
  | .undef00 a => Sys2Proof.Machine.execUndef00 a s
  | .undef02to03 _ a => Sys2Proof.Machine.execUndef02to03 a s
  | .undef04to07 _ a => Sys2Proof.Machine.execUndef04to07 a s
  | .undef08to0f _ a => Sys2Proof.Machine.execUndef08to0f a s
  | .undef10to1f _ a => Sys2Proof.Machine.execUndef10to1f a s
  | .undef20to3f _ a => Sys2Proof.Machine.execUndef20to3f a s

end Sys2Proof.Machine
end

