-- ==== Sys2Proof/Machine/Step.lean ====
section
/-! DEFINITION. One step, and placing an instruction where the next step fetches. -/

namespace Sys2Proof.Machine

/-- One step (40_step_and_operands.md R70): the fetch, then the decoded instruction. A pending skip is part of the
instruction's arm, since a skipped instruction is resolved like any other (R84). No instruction halts: the hardware keeps
stepping until a fault, and where a run ends is a predicate of the claim's choice (50_interfaces.md R176; `State.selfJump` in
Sys2Proof/Safety.lean is the spec's example). -/
def step (s : State) : Host.Outcome State Fault Refusal :=
  match fetch s with
  | .error f => .fault f
  | .ok (w, s1) => exec (decode w) s1

/-- Word `k` of a table instruction placed at `PC + k`, where that address exists. -/
def State.placeWord (s : State) (nbits w k : Nat) : State :=
  if s.pc.toNat + k < Config.capacity then s.poke (s.pc.toNat + k) (tableWord nbits w k) else s

/-- The state with a table instruction (its three words, the bits above `nbits` zero) at PC and no skip pending, so that
the next step runs it. It stands for loading a program from outside; nothing is published (log 18). -/
def State.withFetchWord (s : State) (nbits w : Nat) : State :=
  (((s.placeWord nbits w 0).placeWord nbits w 1).placeWord nbits w 2).setSkip false

end Sys2Proof.Machine
end

