-- ==== Sys2Proof/Machine/HostPort.lean ====
section
/-! DEFINITION. What the outside does to the block between steps: the control port, the memory port as the host uses it,
loading, inspection, and a collaborator's view of the observe port (50_interfaces.md, 20_memory.md R38, R43). A host move
happens at a step boundary only (R173, D12; log 11). -/

namespace Sys2Proof.Machine

/-- What the host can ask of a machine (R165, R166, R167 to R169, R172). -/
inductive Command where
  /-- One instruction (R167). -/
  | step
  /-- Start a run schedule, stopping any earlier one first (R168). -/
  | run
  /-- Cancel the run schedule (R169). -/
  | stop
  /-- The schedule's next batch, of which it gets through at most `n` instructions before the stop flag is seen; the batch
  itself is never longer than BATCH_STEPS (R168, R169; log 14). -/
  | batch (n : Nat)
  /-- `MemRead` by the host (R166). -/
  | read (a : Nat)
  /-- `MemWrite` by the host, whose value can be too large (R166, 60_exceptions.md R182). -/
  | write (a v : Nat)
  /-- `MemReset` (20_memory.md R33). -/
  | memReset
  /-- Write a program's words at ascending addresses from 0 (R172). -/
  | load (program : List Word)
  deriving DecidableEq, Repr

/-- What the host is told (R167, R171). -/
inductive Response where
  | done
  | value (v : Word)
  | faulted (f : Fault)
  | refused (r : Refusal)
  deriving DecidableEq, Repr

/-- Up to `n` steps for the host, and what it is told: all of them done, or the fault that ended them with the state it leaves
(R167, R171, 60_exceptions.md R184). A fault ends the run schedule if one is active (R171, R176, D7; log 7). Nothing else
ends the steps: the hardware itself keeps stepping, a self-jump included (R176). -/
def runSteps : Nat → State → State × Response
  | 0, s => (s, .done)
  | n + 1, s =>
    match step s with
    | .next s1 => runSteps n s1
    | .fault f => (f.left.setRunning false, .faulted f)
    | .refused r => (s.setRunning false, .refused r)

/-- One step command, synchronous (R167). DEDUCED: its fault ends a run schedule that is active between batches, as a fault in
a batch does, since R176 has a run over "when a step faults" whoever asked for the step (log 7). -/
def stepCommand (s : State) : State × Response := runSteps 1 s

/-- The words written at consecutive addresses from `a`, each with its event (R172). DESIGN CHOICE: R172 gives a load its
meaning up to 65536 words; a longer one writes the first 65536, keeps them and their events, and is OutOfRange at 0x10000
(log 22). -/
def loadFrom : Nat → List Word → State → Except Fault State
  | _, [], s => .ok s
  | a, w :: ws, s =>
    match memWrite a w.toNat s with
    | .error f => .error f
    | .ok s1 => loadFrom (a + 1) ws s1

/-- The machine and the response of a host operation that answers no value. -/
def hostDone (r : Except Fault State) : State × Response :=
  match r with
  | .error f => (f.left, .faulted f)
  | .ok s => (s, .done)

/-- One host command (R165). -/
def control (c : Command) (s : State) : State × Response :=
  match c with
  | .step => stepCommand s
  | .run => (s.setRunning true, .done)
  | .stop => (s.setRunning false, .done)
  | .batch n => if s.running then runSteps (min n Config.batchSteps) s else (s, .done)
  | .read a =>
    match memRead a s with
    | .error f => (f.left, .faulted f)
    | .ok (v, s1) => (s1, .value v)
  | .write a v => hostDone (memWrite a v s)
  | .memReset => (memReset s, .done)
  | .load p => hostDone (loadFrom 0 p s)

/-- What the host can inspect without changing anything or publishing anything (R174, D13; log 12). -/
structure Inspection where
  regs : Regs
  sp : Word
  pc : Word
  o : Word
  skip : Bool
  steps : Nat
  deriving DecidableEq, Repr

/-- Inspection between steps (R174). -/
def State.inspect (s : State) : Inspection := ⟨s.regs, s.sp, s.pc, s.o, s.skip, s.steps⟩

/-- The address an event names. -/
def Event.address : Event → Word
  | .rd a _ => a
  | .wr a _ => a

/-- The events a collaborator keeps: it filters the one unfiltered port by its own range (20_memory.md R38, R43; log 21). -/
def windowEvents (w : Config.Window) (trace : List Event) : List Event :=
  trace.filter fun e => decide (w.base ≤ e.address.toNat) && decide (e.address.toNat < w.base + w.size)

end Sys2Proof.Machine
end

