-- ==== Sys2Proof/Safety.lean ====
section
/-! DEFINITION. The terms the claims use: what an operand names, in the words of the table of 30_encoding.md R54 rather than
by running the resolution; when a step completes and what it leaves; the machine's invariants. The machine calls none. -/

namespace Sys2Proof.Machine

/-- The word of the instruction at `PC + len`, for an operand that consumes one. -/
def State.nextWordAt (s : State) (len : Nat) : Word := s.mem.load (s.pc.toNat + len)

/-- The address an operand names, an unreduced sum for `[next word + register]`; none for a register or a literal (R54). -/
def operandAddress (op : Operand) (len : Nat) (s : State) : Option Nat :=
  match op with
  | .ind r => some (s.regs.get r).toNat
  | .idx r => some ((s.nextWordAt len).toNat + (s.regs.get r).toNat)
  | .pop | .peek => some s.sp.toNat
  | .push => some (s.sp - 1).toNat
  | .abs => some (s.nextWordAt len).toNat
  | .reg _ | .sp | .pc | .o | .lit | .small _ => none

/-- Where an operand can be written (R54): a register, the word at its address, or nowhere for a literal. -/
def operandLoc (op : Operand) (len : Nat) (s : State) : Loc :=
  match op with
  | .reg r => .reg r
  | .sp => .sp
  | .pc => .pc
  | .o => .o
  | .lit | .small _ => .none
  | .ind _ | .idx _ | .pop | .peek | .push | .abs =>
    match operandAddress op len s with
    | some n => .mem (reduce n)
    | none => .none

/-- The value an operand has (R54). -/
def operandValue (op : Operand) (len : Nat) (s : State) : Word :=
  match op with
  | .reg r => s.regs.get r
  | .sp => s.sp
  | .pc => s.pc
  | .o => s.o
  | .lit => s.nextWordAt len
  | .small n => n.setWidth 16
  | .ind _ | .idx _ | .pop | .peek | .push | .abs =>
    match operandAddress op len s with
    | some n => s.mem.load n
    | none => 0

/-- The first address above capacity that resolving an operand would read: its next word's, then its own
(60_exceptions.md R181, R186). -/
def operandFault (op : Operand) (len : Nat) (s : State) : Option Nat :=
  if op.extra = 1 ∧ Config.capacity ≤ s.pc.toNat + len then some (s.pc.toNat + len)
  else
    match operandAddress op len s with
    | some n => if Config.capacity ≤ n then some n else none
    | none => none

/-- The read of an operand's next word, if it has one in range. -/
def nextWordReads (op : Operand) (len : Nat) (s : State) : List Event :=
  if op.extra = 1 ∧ s.pc.toNat + len < Config.capacity then [.rd (reduce (s.pc.toNat + len)) (s.nextWordAt len)] else []

/-- The reads resolving an operand makes: its next word, then its own (40_step_and_operands.md R88). -/
def operandReads (op : Operand) (len : Nat) (s : State) : List Event :=
  nextWordReads op len s ++
    match operandAddress op len s with
    | some n => [.rd (reduce n) (s.mem.load n)]
    | none => []

/-- An operand's change of SP when its instruction executes: POP up by one, PUSH down by one (R85). -/
def stackDelta : Operand → Word
  | .pop => 1
  | .push => 0xFFFF
  | .reg _ | .ind _ | .idx _ | .peek | .sp | .pc | .o | .abs | .lit | .small _ => 0

/-- Events published one after the other. -/
def State.publishAll (s : State) (es : List Event) : State := { s with trace := s.trace ++ es }

/-- The first out-of-range address of an instruction, target before source (R186). -/
def decodeFault (i : Instr) (s : State) : Option Nat :=
  match operandFault i.first 1 s with
  | some n => some n
  | none =>
    match i.second with
    | some a => operandFault a (1 + i.first.extra) s
    | none => none

/-- Every operand resolves: no OutOfRange. -/
def readable (i : Instr) (s : State) : Bool := (decodeFault i s).isNone

/-- The value of an instruction's source, or of a non-basic instruction's operand. -/
def sourceValue (i : Instr) (s : State) : Word :=
  match i.second with
  | some a => operandValue a (1 + i.first.extra) s
  | none => operandValue i.first 1 s

/-- The reads of an instruction's operands, items 2 to 5 of R88. -/
def instrReads (i : Instr) (s : State) : List Event :=
  operandReads i.first 1 s ++
    match i.second with
    | some a => operandReads a (1 + i.first.extra) s
    | none => []

/-- The operand reads an instruction makes before its first out-of-range one (60_exceptions.md R184). -/
def readsBeforeFault (i : Instr) (s : State) : List Event :=
  match operandFault i.first 1 s with
  | some _ => nextWordReads i.first 1 s
  | none =>
    operandReads i.first 1 s ++
      match i.second with
      | some a => nextWordReads a (1 + i.first.extra) s
      | none => []

/-- The instruction would write a literal (30_encoding.md R61). -/
def writesLiteral (i : Instr) : Bool := i.writesTarget && i.first.isLiteral

/-- The instruction runs to its end as itself: no skip pending, every operand in range, no literal target. -/
def runs (i : Instr) (s : State) : Bool := !s.skip && readable i s && !writesLiteral i

/-- The instruction writes PC in this state: a writer whose target is PC, or JSR, not skipped (44_nonbasic_jsr.md R152). -/
def writesPc (i : Instr) (s : State) : Bool := !s.skip && ((i.writesTarget && i.first == .pc) || i.isJsr)

/-- The instruction PC names. -/
def State.current (s : State) : Instr := decode (s.mem.load s.pc.toNat)

/-- The state the fetch leaves: its event published (R71). -/
def State.fetched (s : State) : State := s.publish (.rd s.pc (s.mem.load s.pc.toNat))

/-- The next step completes: the operands are in range, and the instruction is skipped or writes no literal. -/
def State.safe (s : State) : Bool := readable s.current s && (s.skip || !writesLiteral s.current)

/-- The end of a run by convention (50_interfaces.md R176): the instruction at PC, not skipped, is a SET of PC to PC's own
value, from an operand that is in range and moves no SP. A claim may choose another predicate; the hardware keeps stepping
here as anywhere. -/
def State.selfJump (s : State) : Bool :=
  match s.current.second with
  | some a =>
    s.current == .set .pc a && !s.skip && (operandFault a 1 s).isNone && operandValue a 1 s == s.pc && stackDelta a == 0
  | none => false

/-- What a completed writer leaves (R86, R85, R13): its target holds `v`, O holds `o`, SP has moved by the stack operands,
PC by the length, and everything else is as it was. That SP and PC are reduced mod 2^16 is the spec's decision D4 (log 19).
The trace is `Obligations.StepAccessesMemoryInOrder`'s matter. -/
structure WriterLeaves (t a : Operand) (v o : Word) (s s' : State) : Prop where
  regs : ∀ r : Reg, s'.regs.get r = if t = .reg r then v else s.regs.get r
  sp : s'.sp = if t = .sp then v else s.sp + stackDelta t + stackDelta a
  pc : s'.pc = if t = .pc then v else reduce (s.pc.toNat + (1 + t.extra + a.extra))
  o : s'.o = o
  skip : s'.skip = false
  mem : ∀ n : Nat, s'.mem.load n = if operandAddress t 1 s = some n then v else s.mem.load n
  steps : s'.steps = s.steps + 1
  notified : s'.notified = s.notified + 1
  running : s'.running = s.running

/-- What a completed conditional leaves (43_conditional_skip.md R140): the skip flag, SP by the stack operands, PC by the
length, both mod 2^16 (the spec's decision D4; log 19), and everything else as it was. -/
structure ConditionalLeaves (t a : Operand) (skip : Bool) (s s' : State) : Prop where
  regs : s'.regs = s.regs
  sp : s'.sp = s.sp + stackDelta t + stackDelta a
  pc : s'.pc = reduce (s.pc.toNat + (1 + t.extra + a.extra))
  o : s'.o = s.o
  skip : s'.skip = skip
  mem : s'.mem = s.mem
  steps : s'.steps = s.steps + 1
  notified : s'.notified = s.notified + 1
  running : s'.running = s.running

/-- The instruction is an undefined non-basic opcode (R59). -/
def undefinedOpcode : Instr → Bool
  | .undef00 _ => true
  | .undef02to03 _ _ | .undef04to07 _ _ | .undef08to0f _ _ | .undef10to1f _ _ | .undef20to3f _ _ => true
  | .set _ _ | .add _ _ | .sub _ _ | .mul _ _ | .div _ _ | .mod _ _ | .shl _ _ | .shr _ _ => false
  | .and _ _ | .bor _ _ | .xor _ _ | .ife _ _ | .ifn _ _ | .ifg _ _ | .ifb _ _ | .jsr _ => false

/-- The state after a step that changes nothing but the skip flag, PC, the counts and the trace. That PC is reduced mod 2^16 is
the spec's decision D4 (log 19), that the operands are read its decisions D9 and D10 (log 9). -/
def passedOver (i : Instr) (s : State) : State :=
  { s with
    skip := false
    pc := reduce (s.pc.toNat + i.length)
    steps := s.steps + 1
    notified := s.notified + 1
    trace := s.trace ++ instrReads i s }

/-- The table of 10_state.md R17: what O holds after an instruction with these values, its target not being O. The O
of SHL and SHR for a count of 17 and more is the spec's decision D6 (log 6). -/
def implicitO (i : Instr) (x y o : Word) : Word :=
  match i with
  | .add _ _ => if 0xFFFF < x.toNat + y.toNat then 1 else o
  | .sub _ _ => if x.toNat < y.toNat then 0xFFFF else o
  | .mul _ _ => reduce (x.toNat * y.toNat / 65536)
  | .div _ _ => if y.toNat = 0 then 0 else reduce (x.toNat * 65536 / y.toNat)
  | .shl _ _ => reduce (x.toNat * 2 ^ y.toNat / 65536)
  | .shr _ _ => reduce (x.toNat * 65536 / 2 ^ y.toNat)
  | .set _ _ | .mod _ _ | .and _ _ | .bor _ _ | .xor _ _ | .ife _ _ | .ifn _ _ | .ifg _ _ | .ifb _ _ => o
  | .jsr _ | .undef00 _ => o
  | .undef02to03 _ _ | .undef04to07 _ _ | .undef08to0f _ _ | .undef10to1f _ _ | .undef20to3f _ _ => o

/-- The O value an instruction writes before its target (41_move_arith.md R107): ADD's carry and SUB's borrow, which an
InvalidTarget leaves behind (60_exceptions.md R184; log 5, log 7). -/
def earlyO (i : Instr) (x y : Word) : Option Word :=
  match i with
  | .add _ _ => if 0xFFFF < x.toNat + y.toNat then some 1 else none
  | .sub _ _ => if x.toNat < y.toNat then some 0xFFFF else none
  | .set _ _ | .mul _ _ | .div _ _ | .mod _ _ | .shl _ _ | .shr _ _ => none
  | .and _ _ | .bor _ _ | .xor _ _ | .ife _ _ | .ifn _ _ | .ifg _ _ | .ifb _ _ => none
  | .jsr _ | .undef00 _ => none
  | .undef02to03 _ _ | .undef04to07 _ _ | .undef08to0f _ _ | .undef10to1f _ _ | .undef20to3f _ _ => none

/-- A conditional's condition is false for these values; no other instruction has one (43_conditional_skip.md R141 to
R144). -/
def conditionFails (i : Instr) (x y : Word) : Prop :=
  match i with
  | .ife _ _ => x ≠ y
  | .ifn _ _ => x = y
  | .ifg _ _ => x.toNat ≤ y.toNat
  | .ifb _ _ => x &&& y = 0
  | .set _ _ | .add _ _ | .sub _ _ | .mul _ _ | .div _ _ | .mod _ _ | .shl _ _ | .shr _ _ => False
  | .and _ _ | .bor _ _ | .xor _ _ | .jsr _ | .undef00 _ => False
  | .undef02to03 _ _ | .undef04to07 _ _ | .undef08to0f _ _ | .undef10to1f _ _ | .undef20to3f _ _ => False

/-- Two faults of one kind with the same information for the host (60_exceptions.md R180). -/
def sameFault : Fault → Fault → Prop
  | .outOfRange a _, .outOfRange b _ => a = b
  | .valueTooLarge a _, .valueTooLarge b _ => a = b
  | .invalidTarget a _, .invalidTarget b _ => a = b
  | .outOfRange _ _, .valueTooLarge _ _ | .outOfRange _ _, .invalidTarget _ _ => False
  | .valueTooLarge _ _, .outOfRange _ _ | .valueTooLarge _ _, .invalidTarget _ _ => False
  | .invalidTarget _ _, .outOfRange _ _ | .invalidTarget _ _, .valueTooLarge _ _ => False

/-- The value an address was last written in a trace; 0 if it was not (20_memory.md R40). -/
def lastWritten (trace : List Event) (a : Word) : Word :=
  trace.foldl
    (fun v e =>
      match e with
      | .wr b w => if b = a then w else v
      | .rd _ _ => v)
    0

/-- Every read of a trace returned the most recent write to its address (20_memory.md R40). -/
def coherent (trace : List Event) : Prop :=
  ∀ (before after : List Event) (a v : Word), trace = before ++ .rd a v :: after → v = lastWritten before a

/-- The machine's trace explains its memory, and every read in it saw the latest write. -/
def State.sequential (s : State) : Prop :=
  coherent s.trace ∧ ∀ a : Word, s.mem.load a.toNat = lastWritten s.trace a

/-- Memory keeps its canonical form, and the host has been notified once per counted step (50_interfaces.md R170). -/
def State.inv (s : State) : Prop := s.mem.wf = true ∧ s.notified = s.steps

/-- What a program can see or be affected by: everything but the counter, the port's history and the control port. -/
def State.sameProgramView (s t : State) : Prop :=
  s.regs = t.regs ∧ s.sp = t.sp ∧ s.pc = t.pc ∧ s.o = t.o ∧ s.skip = t.skip ∧ s.mem = t.mem

end Sys2Proof.Machine
end

