-- ==== Sys2Proof/Certificates/Slice0/Obligations.lean ====
section
/-! DEFINITION. The statements for the provers. Each docstring names the rule or section of spec/ it comes from. -/

open Sys2Proof Sys2Proof.Machine

/-! ### Encoding -/

/-- A few first words, written out bit by bit from `sssssstttttt` and the opcode (30_encoding.md sections 1 to 3). The opcode
numbers are PRESUMED from the spec's default (log 2). -/
def Obligations.WrittenOutWordsDecode : Prop :=
  decode 0b1001010000000001 = .set (.reg .a) (.small 5) ∧
  decode 0b0111110111100001 = .set .abs .lit ∧
  decode 0b0110000110000010 = .add .pop .pop ∧
  decode 0b1001000000110111 = .shl (.reg .x) (.small 4) ∧
  decode 0b0000001001011100 = .ife (.small 5) (.reg .a) ∧
  decode 0b0111110000010000 = .jsr .lit ∧
  decode 0b0110101111110000 = .undef20to3f 0x3f .push ∧
  decode 0b0000000000000000 = .undef00 (.reg .a)

/-- Decoding an encoded well-formed instruction gives it back (30_encoding.md sections 1 to 3). The opcode numbers are PRESUMED
from the spec's default (log 2). -/
def Obligations.DecodeOfEncodeIsTheInstruction : Prop :=
  ∀ i : Instr, i.wellFormed = true → decode (encode i) = i

/-- Every first word decodes to a well-formed instruction whose encoding is the word again, so no bit is dropped and the
decoder is total (30_encoding.md sections 1 and 5). The opcode numbers are PRESUMED from the spec's default (log 2). -/
def Obligations.EncodeOfDecodeIsTheWord : Prop :=
  ∀ w : Word, (decode w).wellFormed = true ∧ encode (decode w) = w

/-- R50: the length is one plus the next words of the operand fields, from the fields of the first word alone. -/
def Obligations.LengthComesFromTheOperandFields : Prop :=
  ∀ w : Word,
    let extra : BitVec 6 → Nat := fun c =>
      if (0x10 ≤ c.toNat ∧ c.toNat ≤ 0x17) ∨ c.toNat = 0x1e ∨ c.toNat = 0x1f then 1 else 0
    let target := (w.toNat / 16) % 64
    let source := w.toNat / 1024
    (decode w).length =
        1 + (if w.toNat % 16 = 0 then 0 else extra (BitVec.ofNat 6 target)) + extra (BitVec.ofNat 6 source) ∧
      1 ≤ (decode w).length ∧ (decode w).length ≤ 3

/-! ### Memory and the observe port -/

/-- R31: MemRead, and the host's read through it. A failed read publishes nothing. -/
def Obligations.ReadReturnsTheWordAndPublishesIt : Prop :=
  ∀ (a : Nat) (s : State),
    (0x10000 ≤ a →
      memRead a s = .error (.outOfRange a s) ∧ control (.read a) s = (s, .faulted (.outOfRange a s))) ∧
    (a < 0x10000 →
      let t : State := { s with trace := s.trace ++ [.rd (BitVec.ofNat 16 a) (s.mem.load a)] }
      memRead a s = .ok (s.mem.load a, t) ∧ control (.read a) s = (t, .value (s.mem.load a)))

/-- R32: MemWrite, the value check first, and the host's write through it. A failed write leaves the state as it was. The Cpu
never passes a value that is too large. -/
def Obligations.WriteChecksThenStoresThenPublishes : Prop :=
  (∀ (a v : Nat) (s : State),
    (0xFFFF < v →
      memWrite a v s = .error (.valueTooLarge v s) ∧ control (.write a v) s = (s, .faulted (.valueTooLarge v s))) ∧
    (v ≤ 0xFFFF → 0x10000 ≤ a →
      memWrite a v s = .error (.outOfRange a s) ∧ control (.write a v) s = (s, .faulted (.outOfRange a s))) ∧
    (v ≤ 0xFFFF → a < 0x10000 → ∃ m : Memory,
      let t : State := { s with mem := m, trace := s.trace ++ [.wr (BitVec.ofNat 16 a) (BitVec.ofNat 16 v)] }
      memWrite a v s = .ok t ∧ control (.write a v) s = (t, .done) ∧
      ∀ n : Nat, m.load n = if n = a then BitVec.ofNat 16 v else s.mem.load n)) ∧
  ∀ (s : State) (v : Nat) (left : State), step s ≠ .fault (.valueTooLarge v left)

/-- R34: a write then a read of the same address returns the value; no other address is aliased. -/
def Obligations.ReadAfterWriteReturnsTheValue : Prop :=
  ∀ (a v : Nat) (s : State), a < 0x10000 → v ≤ 0xFFFF →
    ∃ s1 s2 : State, memWrite a v s = .ok s1 ∧ memRead a s1 = .ok (BitVec.ofNat 16 v, s2) ∧
      ∀ b : Nat, b ≠ a → s1.mem.load b = s.mem.load b ∧ s2.mem.load b = s.mem.load b

/-- R33: MemReset zeroes every word, publishes nothing and touches no Cpu state. -/
def Obligations.MemResetZeroesMemoryAndPublishesNothing : Prop :=
  ∀ s : State, ∃ t : State, control .memReset s = (t, .done) ∧
    (∀ a : Nat, a < 0x10000 → t.mem.load a = 0) ∧ t.trace = s.trace ∧ t.inspect = s.inspect ∧
    t.notified = s.notified ∧ t.running = s.running

/-- Two memories in canonical form that read alike are the same data (10_state.md section 7; the form is the model's own,
DESIGN CHOICE, log 3). -/
def Obligations.CanonicalMemoriesThatReadAlikeAreEqual : Prop :=
  ∀ m n : Memory, m.wf = true → n.wf = true → (∀ a : Nat, m.load a = n.load a) → m = n

/-! ### Operands -/

/-- The operand table of 30_encoding.md section 2, code by code: which operand each code is, and that resolving it answers
the table's location, value and next word, publishes its reads and changes nothing else. The order of the register names is
the spec's decision D16 (log 15); that each memory operand is read is its decisions D9 and D10 (log 9). An operand out of range
(20_memory.md section 6, the spec's decision D3, log 4) is the next statement's matter. -/
def Obligations.OperandsResolveAsTheTableSays : Prop :=
  (∀ (k : Nat) (r : Reg),
    (k, r) ∈ [(0, Reg.a), (1, .b), (2, .c), (3, .x), (4, .y), (5, .z), (6, .i), (7, .j)] →
      Operand.ofCode (BitVec.ofNat 6 k) = .reg r ∧ Operand.ofCode (BitVec.ofNat 6 (0x08 + k)) = .ind r ∧
      Operand.ofCode (BitVec.ofNat 6 (0x10 + k)) = .idx r) ∧
  (Operand.ofCode 0x18 = .pop ∧ Operand.ofCode 0x19 = .peek ∧ Operand.ofCode 0x1a = .push ∧ Operand.ofCode 0x1b = .sp ∧
    Operand.ofCode 0x1c = .pc ∧ Operand.ofCode 0x1d = .o ∧ Operand.ofCode 0x1e = .abs ∧ Operand.ofCode 0x1f = .lit) ∧
  (∀ n : BitVec 5, Operand.ofCode (BitVec.ofNat 6 (0x20 + n.toNat)) = .small n) ∧
  ∀ (c : BitVec 6) (len : Nat) (s : State),
    let op := Operand.ofCode c
    operandFault op len s = none →
      resolve op len s =
        .ok (⟨c, operandLoc op len s, operandValue op len s,
            decide ((0x10 ≤ c.toNat ∧ c.toNat ≤ 0x17) ∨ c.toNat = 0x1e ∨ c.toNat = 0x1f)⟩,
          s.publishAll (operandReads op len s))

/-- An operand's next word past 0xFFFF, or its indexed sum past 0xFFFF, is OutOfRange with the reads before it published and
nothing else changed (60_exceptions.md sections 1 and 2, 20_memory.md section 6; the spec's decisions D3 and D7, log 4 and
log 7). -/
def Obligations.OperandPastTheTopIsOutOfRange : Prop :=
  ∀ (op : Operand) (len n : Nat) (s : State), operandFault op len s = some n →
    0x10000 ≤ n ∧ resolve op len s = .error (.outOfRange n (s.publishAll (nextWordReads op len s)))

/-- R86: the write contract, location by location. -/
def Obligations.WriteOperandWritesItsLocation : Prop :=
  ∀ (op : Resolved) (v : Word) (s : State),
    (∀ r : Reg, op.loc = .reg r → ∃ g : Regs, writeOperand op v s = .ok ({ s with regs := g }, false) ∧
      ∀ q : Reg, g.get q = if q = r then v else s.regs.get q) ∧
    (op.loc = .sp → writeOperand op v s = .ok ({ s with sp := v }, false)) ∧
    (op.loc = .o → writeOperand op v s = .ok ({ s with o := v }, false)) ∧
    (op.loc = .pc → writeOperand op v s = .ok ({ s with pc := v }, true)) ∧
    (∀ a : Word, op.loc = .mem a → ∃ m : Memory,
      writeOperand op v s = .ok ({ s with mem := m, trace := s.trace ++ [.wr a v] }, false) ∧
      ∀ n : Nat, m.load n = if n = a.toNat then v else s.mem.load n) ∧
    (op.loc = .none → writeOperand op v s = .error (.invalidTarget op.code s))

/-! ### Move and arithmetic (41_move_arith.md) -/

/-- SET: the target holds the source's value, O is not written (41_move_arith.md section 2). The frame, here and in the other
result statements, is `WriterLeaves`, whose PC and SP are reduced mod 2^16 by the spec's decision D4 (log 19). -/
def Obligations.SetWritesTheSourceValue : Prop :=
  ∀ (t a : Operand) (s : State), runs (.set t a) s = true →
    let y := operandValue a (1 + t.extra) s
    ∃ s' : State, exec (.set t a) s = .next s' ∧ WriterLeaves t a y (if t = .o then y else s.o) s s'

/-- ADD: the sum mod 2^16; O is 1 on a carry and left alone without one, unless it is the target, whose write comes last
(41_move_arith.md section 2, the spec's decision D5, log 5). -/
def Obligations.AddWritesTheSumAndCarriesIntoO : Prop :=
  ∀ (t a : Operand) (s : State), runs (.add t a) s = true →
    let x := operandValue t 1 s
    let y := operandValue a (1 + t.extra) s
    ∃ s' : State, exec (.add t a) s = .next s' ∧
      WriterLeaves t a (x + y) (if t = .o then x + y else if x.toNat + y.toNat > 0xFFFF then 1 else s.o) s s'

/-- SUB: the difference mod 2^16; O is 0xFFFF on a borrow and left alone without one, unless it is the target, whose write
comes last (41_move_arith.md section 2, the spec's decision D5, log 5). -/
def Obligations.SubWritesTheDifferenceAndBorrowsIntoO : Prop :=
  ∀ (t a : Operand) (s : State), runs (.sub t a) s = true →
    let x := operandValue t 1 s
    let y := operandValue a (1 + t.extra) s
    ∃ s' : State, exec (.sub t a) s = .next s' ∧
      WriterLeaves t a (x - y) (if t = .o then x - y else if x.toNat < y.toNat then 0xFFFF else s.o) s s'

/-- MUL: the product's low half to the target, its high half to O, whose write comes last (41_move_arith.md section 2, the
spec's decision D5, log 5). -/
def Obligations.MulWritesTheProductAcrossTargetAndO : Prop :=
  ∀ (t a : Operand) (s : State), runs (.mul t a) s = true →
    let x := operandValue t 1 s
    let y := operandValue a (1 + t.extra) s
    ∃ (s' : State) (low high : Word), exec (.mul t a) s = .next s' ∧ WriterLeaves t a low high s s' ∧
      high.toNat * 65536 + low.toNat = x.toNat * y.toNat

/-- DIV: the floor of the quotient to the target, its fraction scaled by 65536 to O, whose write comes last; both 0 by a zero
divisor (41_move_arith.md section 2, the spec's decisions D5 and D6, log 5 and log 6). -/
def Obligations.DivWritesTheQuotientAndItsFraction : Prop :=
  ∀ (t a : Operand) (s : State), runs (.div t a) s = true →
    let x := operandValue t 1 s
    let y := operandValue a (1 + t.extra) s
    ∃ (s' : State) (q f : Word), exec (.div t a) s = .next s' ∧ WriterLeaves t a q f s s' ∧
      (y.toNat = 0 → q = 0 ∧ f = 0) ∧
      (y.toNat ≠ 0 → q.toNat = x.toNat / y.toNat ∧ f.toNat = (x.toNat % y.toNat) * 65536 / y.toNat)

/-- MOD: the remainder, 0 by a zero divisor; O is not written unless it is the target (41_move_arith.md section 2). -/
def Obligations.ModWritesTheRemainder : Prop :=
  ∀ (t a : Operand) (s : State), runs (.mod t a) s = true →
    let x := operandValue t 1 s
    let y := operandValue a (1 + t.extra) s
    ∃ (s' : State) (m : Word), exec (.mod t a) s = .next s' ∧
      WriterLeaves t a m (if t = .o then m else s.o) s s' ∧
      m.toNat = if y.toNat = 0 then 0 else x.toNat % y.toNat

/-! ### Shift and bitwise (42_shift_logic.md) -/

/-- SHL in closed form, the count not masked (42_shift_logic.md section 1, the spec's decisions D5 and D6, log 5 and
log 6). -/
def Obligations.ShlShiftsIntoTargetAndO : Prop :=
  ∀ (t a : Operand) (s : State), runs (.shl t a) s = true →
    let x := operandValue t 1 s
    let n := (operandValue a (1 + t.extra) s).toNat
    ∃ (s' : State) (low high : Word), exec (.shl t a) s = .next s' ∧ WriterLeaves t a low high s s' ∧
      (n ≤ 15 → low.toNat = x.toNat * 2 ^ n % 65536) ∧ (16 ≤ n → low = 0) ∧
      (n ≤ 31 → high.toNat = x.toNat * 2 ^ n / 65536 % 65536) ∧ (32 ≤ n → high = 0)

/-- SHR in closed form, logical, the count not masked (42_shift_logic.md section 1, the spec's decisions D5 and D6, log 5
and log 6). -/
def Obligations.ShrShiftsIntoTargetAndO : Prop :=
  ∀ (t a : Operand) (s : State), runs (.shr t a) s = true →
    let x := operandValue t 1 s
    let n := (operandValue a (1 + t.extra) s).toNat
    ∃ (s' : State) (v out : Word), exec (.shr t a) s = .next s' ∧ WriterLeaves t a v out s s' ∧
      v.toNat = x.toNat / 2 ^ n ∧ (16 ≤ n → v = 0) ∧
      (n ≤ 16 → out.toNat = x.toNat * 2 ^ (16 - n) % 65536) ∧
      (16 ≤ n → out.toNat = x.toNat / 2 ^ (n - 16)) ∧ (32 ≤ n → out = 0)

/-- AND, BOR, XOR: bit by bit, O not written unless it is the target (42_shift_logic.md section 2). -/
def Obligations.BitwiseInstructionsCombineBits : Prop :=
  ∀ (t a : Operand) (s : State), s.skip = false → t.isLiteral = false →
    let x := operandValue t 1 s
    let y := operandValue a (1 + t.extra) s
    (readable (.and t a) s = true → ∃ (s' : State) (v : Word), exec (.and t a) s = .next s' ∧
      WriterLeaves t a v (if t = .o then v else s.o) s s' ∧
      ∀ k : Nat, v.getLsbD k = (x.getLsbD k && y.getLsbD k)) ∧
    (readable (.bor t a) s = true → ∃ (s' : State) (v : Word), exec (.bor t a) s = .next s' ∧
      WriterLeaves t a v (if t = .o then v else s.o) s s' ∧
      ∀ k : Nat, v.getLsbD k = (x.getLsbD k || y.getLsbD k)) ∧
    (readable (.xor t a) s = true → ∃ (s' : State) (v : Word), exec (.xor t a) s = .next s' ∧
      WriterLeaves t a v (if t = .o then v else s.o) s s' ∧
      ∀ k : Nat, v.getLsbD k = (x.getLsbD k ^^ y.getLsbD k))

/-! ### Conditional skip (43_conditional_skip.md) -/

/-- The four conditionals complete on any operands in range, a literal target too; each sets the skip flag when its condition
is false and writes nothing else. Out of range they fault with OutOfRange, and with nothing else (43_conditional_skip.md
section 1; which sums are out of range is the spec's decision D3, log 4; PC's and SP's reduction its decision D4, log 19). -/
def Obligations.ConditionalsSkipWhenFalse : Prop :=
  ∀ (t a : Operand) (s : State), s.skip = false →
    let x := operandValue t 1 s
    let y := operandValue a (1 + t.extra) s
    (readable (.ife t a) s = true →
      (∃ s' : State, exec (.ife t a) s = .next s' ∧ ConditionalLeaves t a (decide (x ≠ y)) s s') ∧
      (∃ s' : State, exec (.ifn t a) s = .next s' ∧ ConditionalLeaves t a (decide (x = y)) s s') ∧
      (∃ s' : State, exec (.ifg t a) s = .next s' ∧ ConditionalLeaves t a (decide (x.toNat ≤ y.toNat)) s s') ∧
      (∃ s' : State, exec (.ifb t a) s = .next s' ∧ ConditionalLeaves t a (decide (x &&& y = 0)) s s')) ∧
    (readable (.ife t a) s = false →
      ∀ i : Instr, i = .ife t a ∨ i = .ifn t a ∨ i = .ifg t a ∨ i = .ifb t a →
        ∃ (n : Nat) (left : State), exec i s = .fault (.outOfRange n left))

/-- With the skip flag set an instruction is resolved, reads and all (the spec's decision D9, log 9), the flag is cleared, and
nothing is executed: no stack effect, no InvalidTarget, no new skip. PC passes it, mod 2^16 (the spec's decision D4, log 19),
and the step counts. Out of range, by the spec's decision D3 (log 4), it faults and the flag stays set, which is the state the
spec's decision D7 leaves (log 7; 40_step_and_operands.md section 3). -/
def Obligations.PendingSkipPassesOverTheInstruction : Prop :=
  ∀ (i : Instr) (s : State), s.skip = true →
    (readable i s = true → exec i s = .next (passedOver i s)) ∧
    (readable i s = false → ∃ (n : Nat) (left : State), exec i s = .fault (.outOfRange n left) ∧ left.skip = true)

/-- The skip flag is set only by a conditional that executes with its condition false, cleared by the step that finds it set,
whose instruction is decoded but neither its body nor its stack effects done, and kept by a fault and by MemReset
(10_state.md section 5). That PC passes the skipped instruction mod 2^16 is the spec's decision D4, the model's choice in
log 19; the state a fault leaves is the spec's decision D7, log 7. -/
def Obligations.OnlyFalseConditionalsSetSkip : Prop :=
  (∀ (i : Instr) (s s' : State), exec i s = .next s' →
    (s'.skip = true ↔ s.skip = false ∧ conditionFails i (operandValue i.first 1 s) (sourceValue i s)) ∧
    (s.skip = true →
      s'.regs = s.regs ∧ s'.sp = s.sp ∧ s'.o = s.o ∧ s'.mem = s.mem ∧ s'.pc = reduce (s.pc.toNat + i.length))) ∧
  (∀ (s : State) (f : Fault), step s = .fault f → f.left.skip = s.skip) ∧
  ∀ s : State, (control .memReset s).1.skip = s.skip

/-! ### JSR, undefined opcodes, control transfer (44_nonbasic_jsr.md) -/

/-- JSR: after the operand's stack effect SP drops by one, the return address `PC + len` is stored there, and PC is the
operand's value; everything else is as it was (44_nonbasic_jsr.md section 1). That the return address is reduced mod 2^16 is
the spec's decision D4, the model's choice in log 19. -/
def Obligations.JsrPushesTheReturnAddressAndJumps : Prop :=
  ∀ (a : Operand) (s : State), s.skip = false → readable (.jsr a) s = true →
    ∃ s' : State, exec (.jsr a) s = .next s' ∧
      s'.regs = s.regs ∧ s'.o = s.o ∧ s'.skip = false ∧
      s'.sp = s.sp + stackDelta a - 1 ∧
      s'.pc = operandValue a 1 s ∧
      (∀ n : Nat, s'.mem.load n =
        if n = (s.sp + stackDelta a - 1).toNat then reduce (s.pc.toNat + (1 + a.extra)) else s.mem.load n) ∧
      s'.steps = s.steps + 1 ∧ s'.notified = s.notified + 1 ∧ s'.running = s.running

/-- The undefined non-basic opcodes are no-ops of their length: nothing changes but PC, the counts and the trace, not even SP
for POP or PUSH (44_nonbasic_jsr.md section 2, the spec's decisions D8 and D10, log 8 and log 9). PC's reduction mod 2^16 is
the spec's decision D4, log 19. -/
def Obligations.UndefinedOpcodesAreNoOps : Prop :=
  ∀ (i : Instr) (s : State), undefinedOpcode i = true → s.skip = false → readable i s = true →
    exec i s = .next (passedOver i s)

/-- A return resumes at the address its call saved: `SET PC, POP` in any state that has the call's SP and the word there
(44_nonbasic_jsr.md section 3; the reduced return address is the spec's decision D4, log 19). -/
def Obligations.ReturnResumesAfterTheCall : Prop :=
  ∀ (a : Operand) (s s1 s2 : State), s.skip = false → exec (.jsr a) s = .next s1 →
    s2.skip = false → s2.sp = s1.sp → s2.mem.load s2.sp.toNat = s1.mem.load s1.sp.toNat →
    ∃ s3 : State, exec (.set .pc .pop) s2 = .next s3 ∧
      s3.pc = reduce (s.pc.toNat + (1 + a.extra)) ∧ s3.sp = s.sp + stackDelta a

/-- The automatic advance: a step that does not write PC moves it by the instruction's length mod 2^16, skipped and undefined
instructions included (10_state.md section 3). The reduction mod 2^16 is an inference of the spec and its decision D4, the
model's choice in log 19. -/
def Obligations.PcAdvancesByTheLengthUnlessWritten : Prop :=
  ∀ s s' : State, step s = .next s' → writesPc s.current s = false →
    s'.pc = reduce (s.pc.toNat + s.current.length)

/-! ### The step as a whole -/

/-- R71: the fetch reads the word at PC, publishes it and changes nothing else, and the step is the decoded instruction in
the state it leaves; PC still names the instruction. -/
def Obligations.StepRunsTheDecodedInstruction : Prop :=
  ∀ s : State,
    fetch s = .ok (s.mem.load s.pc.toNat,
      { s with trace := s.trace ++ [.rd s.pc (s.mem.load s.pc.toNat)] }) ∧
    step s = exec (decode (s.mem.load s.pc.toNat))
      { s with trace := s.trace ++ [.rd s.pc (s.mem.load s.pc.toNat)] }

/-- The accesses of a completed step in their order, and no more than five reads and one write (40_step_and_operands.md
section 4; that each operand is read, needed or not, is the spec's decision D9 and D10, log 9; that the return address written
is reduced mod 2^16 is its decision D4, log 19). -/
def Obligations.StepAccessesMemoryInOrder : Prop :=
  ∀ s s' : State, step s = .next s' →
    let i := s.current
    s'.trace = s.trace ++ (.rd s.pc (s.mem.load s.pc.toNat) :: instrReads i s) ++
      (if s.skip then []
       else if i.isJsr then [.wr s'.sp (reduce (s.pc.toNat + i.length))]
       else if i.writesTarget then
         match operandAddress i.first 1 s with
         | some n => [.wr (reduce n) (s'.mem.load n)]
         | none => []
       else []) ∧
    (instrReads i s).length ≤ 4

/-- The step counter and the notification move by one on a completed step and not at all on a fault (50_interfaces.md section 2;
the counter's unbounded width is the spec's decision D11, log 10, and the state a fault leaves its decision D7, log 7). -/
def Obligations.CompletedStepsAreCountedAndNotified : Prop :=
  (∀ s s' : State, step s = .next s' → s'.steps = s.steps + 1 ∧ s'.notified = s.notified + 1) ∧
  (∀ (s : State) (f : Fault), step s = .fault f → f.left.steps = s.steps ∧ f.left.notified = s.notified)

/-- What a completed instruction leaves in O when O is not its target, from the table of implicit writers; a skipped one leaves
it alone. Code 0x1d reads and writes O like a register, and an instruction that does not name it does not depend on it: run
with another O, it leaves the same state but for O (10_state.md section 5). The O of SHL and SHR for a count of 17 and more is
the spec's decision D6, the model's choice in log 6. -/
def Obligations.OnlyTheListedInstructionsWriteO : Prop :=
  (∀ (i : Instr) (s s' : State), exec i s = .next s' → (i.writesTarget = true → i.first ≠ .o) →
    s'.o = if s.skip then s.o else implicitO i (operandValue i.first 1 s) (sourceValue i s) s.o) ∧
  (∀ (len : Nat) (s : State), resolve (Operand.ofCode 0x1d) len s = .ok (⟨0x1d, .o, s.o, false⟩, s)) ∧
  (∀ (op : Resolved) (v : Word) (s : State), op.loc = .o → writeOperand op v s = .ok ({ s with o := v }, false)) ∧
  ∀ (i : Instr) (s s' : State) (v : Word), i.first ≠ .o → i.second ≠ some .o → exec i s = .next s' →
    ∃ t' : State, exec i { s with o := v } = .next t' ∧ { t' with o := 0 } = { s' with o := 0 }

/-! ### Faults (60_exceptions.md) -/

/-- InvalidTarget is raised exactly by a writer that executes, its operands in range, with a target code of 0x1f or 0x20 to
0x3f, and carries that code (60_exceptions.md sections 1 and 3). Which sums are out of range is the spec's decision D3, the
model's choice in log 4; what the fault carries is its decision D14, log 13. -/
def Obligations.InvalidTargetExactlyForExecutedLiteralTargets : Prop :=
  ∀ (i : Instr) (s : State) (c : BitVec 6),
    (∃ left : State, exec i s = .fault (.invalidTarget c left)) ↔
      i.writesTarget = true ∧ i.first.code = c ∧ 0x1f ≤ c.toNat ∧ s.skip = false ∧ readable i s = true

/-- A step raises the first fault in the order target's next word, target's indexed word, source's next word, source's
indexed word, target write; a host write checks its value first (60_exceptions.md section 3; the out-of-range sums are the
spec's decision D3, log 4). -/
def Obligations.StepRaisesTheFirstFault : Prop :=
  (∀ (s : State) (n : Nat), operandFault s.current.first 1 s = some n →
    ∃ left : State, step s = .fault (.outOfRange n left)) ∧
  (∀ (s : State) (a : Operand) (n : Nat), operandFault s.current.first 1 s = none → s.current.second = some a →
    operandFault a (1 + s.current.first.extra) s = some n → ∃ left : State, step s = .fault (.outOfRange n left)) ∧
  (∀ s : State, decodeFault s.current s = none → s.skip = false → writesLiteral s.current = true →
    ∃ left : State, step s = .fault (.invalidTarget s.current.first.code left)) ∧
  ∀ (a v : Nat) (s : State), 0xFFFF < v → 0x10000 ≤ a →
    control (.write a v) s = (s, .faulted (.valueTooLarge v s))

/-- A step completes exactly when the state is safe, is never refused, and never raises ValueTooLarge (60_exceptions.md
section 1, 30_encoding.md section 5; the out-of-range sums are the spec's decision D3, log 4). -/
def Obligations.StepCompletesExactlyWhenSafe : Prop :=
  ∀ s : State,
    ((∃ s' : State, step s = .next s') ↔ s.safe = true) ∧
    (∀ r : Refusal, step s ≠ .refused r) ∧
    ∀ (v : Nat) (left : State), step s ≠ .fault (.valueTooLarge v left)

/-- What an aborted step leaves (60_exceptions.md section 2; the spec's decision D7, log 7: the spec lets a model show this
state and asks that no claim about a run rest on it). A decode fault leaves the state as it was but for the reads published
before it (the spec's decision D9, log 9); an InvalidTarget leaves the source's stack effect and, for ADD with a carry and SUB
with a borrow, O written (its decision D5, log 5). -/
def Obligations.AbortedStepLeavesThisState : Prop :=
  ∀ (s : State) (f : Fault), step s = .fault f →
    let i := s.current
    (∀ (n : Nat) (left : State), f = .outOfRange n left →
      left = s.fetched.publishAll (readsBeforeFault i s)) ∧
    (∀ (c : BitVec 6) (left : State), f = .invalidTarget c left →
      ∃ a : Operand, i.second = some a ∧
        left = { s.fetched.publishAll (instrReads i s) with
          sp := s.sp + stackDelta a
          o := (earlyO i (operandValue i.first 1 s) (sourceValue i s)).getD s.o })

/-- Stepping again after a fault raises the same fault again. A decode fault recurs identically and publishes the same reads
again; after an InvalidTarget SP has moved once more by the same amount (60_exceptions.md section 2; the state an aborted
step leaves is the spec's decision D7, log 7). -/
def Obligations.FaultRecursWhenSteppedAgain : Prop :=
  ∀ (s : State) (f : Fault), step s = .fault f →
    ∃ g : Fault, step f.left = .fault g ∧ sameFault f g ∧ g.left.sp - f.left.sp = f.left.sp - s.sp ∧
      ∀ (n : Nat) (left : State), f = .outOfRange n left →
        f.left.inspect = s.inspect ∧ f.left.mem = s.mem ∧
        ∃ es : List Event, f.left.trace = s.trace ++ es ∧ g.left = f.left.publishAll es

/-! ### Invariants and whole-machine rules -/

/-- Reset holds the values of 10_state.md section 10 (those of A to J, O, the skip flag and the counter are the spec's
decision D2, log 1), and the invariants hold there. -/
def Obligations.ResetIsZeroAndMeetsTheInvariants : Prop :=
  State.reset.inspect = ⟨⟨0, 0, 0, 0, 0, 0, 0, 0⟩, 0, 0, 0, false, 0⟩ ∧
  (∀ a : Nat, State.reset.mem.load a = 0) ∧ State.reset.trace = [] ∧ State.reset.running = false ∧
  State.reset.inv ∧ State.reset.sequential

/-- Every completed step keeps memory in canonical form and one notification per counted step (10_state.md sections 7 and 8,
50_interfaces.md section 2). -/
def Obligations.StepKeepsTheInvariant : Prop :=
  ∀ s s' : State, s.inv → step s = .next s' → s'.inv

/-- Every step, completed or aborted, keeps sequential consistency: memory is what the trace last wrote, and each read
returned the latest write (20_memory.md section 5; what an aborted step leaves is the spec's decision D7, log 7). -/
def Obligations.StepKeepsSequentialConsistency : Prop :=
  ∀ s : State, s.sequential →
    (∀ s' : State, step s = .next s' → s'.sequential) ∧
    (∀ f : Fault, step s = .fault f → f.left.sequential)

/-- Every host command keeps the invariant, and every one but MemReset, which publishes nothing, keeps sequential consistency
(50_interfaces.md sections 1 to 3; the state a fault leaves is the spec's decision D7, log 7). -/
def Obligations.HostCommandsKeepTheInvariants : Prop :=
  ∀ (c : Command) (s : State),
    (s.inv → (control c s).1.inv) ∧ (c ≠ .memReset → s.sequential → (control c s).1.sequential)

/-- No program can tell the step counter, the observe port's history or the control port's state: machines that agree on the
rest step alike (10_state.md section 8, 60_exceptions.md section 6). -/
def Obligations.ProgramsCannotSeeTheHostsState : Prop :=
  ∀ s t : State, s.sameProgramView t →
    (∀ s' : State, step s = .next s' → ∃ t' : State, step t = .next t' ∧ s'.sameProgramView t') ∧
    (∀ f : Fault, step s = .fault f → ∃ g : Fault, step t = .fault g ∧ sameFault f g)

/-! ### The host's ports (50_interfaces.md) -/

/-- R172: a load writes the program's words at consecutive addresses from 0, one event each in that order, and touches
nothing else. -/
def Obligations.LoadWritesTheProgramFromZero : Prop :=
  ∀ (p : List Word) (s : State), p.length ≤ 0x10000 →
    ∃ m : Memory,
      control (.load p) s =
        ({ s with mem := m, trace := s.trace ++ p.mapIdx fun k w => .wr (BitVec.ofNat 16 k) w }, .done) ∧
      ∀ n : Nat, m.load n = (p[n]?).getD (s.mem.load n)

/-- Stop is idempotent and changes nothing a program or an inspection sees; run on a running machine leaves one schedule
active (50_interfaces.md section 2). -/
def Obligations.StopAndRunChangeOnlyTheSchedule : Prop :=
  ∀ s : State,
    control .stop s = ({ s with running := false }, .done) ∧
    control .stop (control .stop s).1 = control .stop s ∧
    control .run s = ({ s with running := true }, .done) ∧
    control .run (control .run s).1 = control .run s

/-- A batch does nothing on an idle machine. On a running one it makes `n` steps, or BATCH_STEPS if that is fewer. If they all
complete it reports done, with the state they leave and the schedule still active; if one of them faults, the first or a later
one, it ends there with that fault reported, the state the aborted step leaves and the schedule ended. One of the two happens,
and a batch that reports a fault has ended the run (50_interfaces.md section 2; the spec's decisions D7 and D15, log 7 and
log 14). -/
def Obligations.BatchIsTheRepeatedStep : Prop :=
  ∀ (n : Nat) (s : State),
    let steps := min n Config.batchSteps
    (s.running = false → control (.batch n) s = (s, .done)) ∧
    (s.running = true → ∀ s' : State, Sys2Proof.core.run steps s = .next s' →
      control (.batch n) s = (s', .done) ∧ s'.running = true) ∧
    (s.running = true → ∀ (k : Nat) (m : State) (f : Fault), k < steps → Sys2Proof.core.run k s = .next m →
      step m = .fault f → control (.batch n) s = ({ f.left with running := false }, .faulted f)) ∧
    ((∃ s' : State, Sys2Proof.core.run steps s = .next s') ∨
      ∃ (k : Nat) (m : State) (f : Fault), k < steps ∧ Sys2Proof.core.run k s = .next m ∧ step m = .fault f) ∧
    (s.running = true → (control (.batch n) s).1.steps ≤ s.steps + steps) ∧
    (∀ f : Fault, (control (.batch n) s).2 = .faulted f → (control (.batch n) s).1.running = false)

/-- No host command but a step or a batch changes a register, the skip flag or the counter (10_state.md section 9; the spec's
decision D13, log 12). -/
def Obligations.HostCommandsLeaveTheCpuAlone : Prop :=
  ∀ (c : Command) (s : State), c ≠ .step → (∀ n : Nat, c ≠ .batch n) → (control c s).1.inspect = s.inspect

/-- A fault is reported to the host and ends the run, in a step command and in a batch alike, and no batch makes a step after
it; a step command that completes reports done (50_interfaces.md sections 2 and 5; that a fault ends the run is the spec's
decision D7, that a step command's fault does is the model's inference, log 7). -/
def Obligations.FaultIsReportedAndEndsTheRun : Prop :=
  (∀ s s' : State, step s = .next s' → control .step s = (s', .done)) ∧
  ∀ (s : State) (f : Fault), step s = .fault f →
    let left : State := { f.left with running := false }
    control .step s = (left, .faulted f) ∧
    (∀ n : Nat, 1 ≤ n → s.running = true → control (.batch n) s = (left, .faulted f)) ∧
    ∀ n : Nat, control (.batch n) left = (left, .done)

/-- A run is over only when the host stops it or a step faults: of all commands only stop, and a step or a batch that reports a
fault, leaves no schedule active where one was (50_interfaces.md sections 2 and 5; the fault half is the spec's decision D7
and, for a step command, the model's inference, log 7). -/
def Obligations.OnlyStopOrAFaultEndsARun : Prop :=
  ∀ (c : Command) (s : State), s.running = true →
    ((control c s).1.running = false ↔
      c = .stop ∨ ((c = .step ∨ ∃ n : Nat, c = .batch n) ∧ ∃ f : Fault, (control c s).2 = .faulted f))

/-- A program that has finished by convention jumps to itself, and the hardware keeps stepping it: any number of steps
completes and leaves the state as it was but for the counts and the trace, which each step extends by its fetch and its
source's reads (50_interfaces.md section 5; the unbounded counter is the spec's decision D11, log 10). -/
def Obligations.SelfJumpKeepsSteppingAndChangesOnlyTheCountsAndTrace : Prop :=
  ∀ (s : State) (n : Nat), s.selfJump = true →
    ∃ s' : State, Sys2Proof.core.run n s = .next s' ∧ s'.selfJump = true ∧
      s' = { s with
        steps := s.steps + n
        notified := s.notified + n
        trace := s.trace ++
          (List.replicate n (.rd s.pc (s.mem.load s.pc.toNat) :: instrReads s.current s)).flatten }
end

