-- ==== Sys2Proof/Laws/Decode.lean ====
section
/-! SUPPORT. The fields of a first word and the operand codes, each way (30_encoding.md R51 to R54). The round trip of whole
instructions is left to the provers. -/

namespace Sys2Proof

/-! ### Fields -/

@[simp] theorem opcodeField_joinFields (s t : BitVec 6) (o : BitVec 4) : opcodeField (joinFields s t o) = o := by
  apply BitVec.eq_of_getLsbD_eq
  intro i hi
  simp [opcodeField, joinFields, hi, show i < 16 by omega, show i < 10 by omega]

@[simp] theorem targetField_joinFields (s t : BitVec 6) (o : BitVec 4) : targetField (joinFields s t o) = t := by
  apply BitVec.eq_of_getLsbD_eq
  intro i hi
  simp [targetField, joinFields, hi, show 4 + i < 16 by omega, show 4 + i < 10 by omega]

@[simp] theorem sourceField_joinFields (s t : BitVec 6) (o : BitVec 4) : sourceField (joinFields s t o) = s := by
  apply BitVec.eq_of_getLsbD_eq
  intro i hi
  simp [sourceField, joinFields, hi, show 10 + i < 16 by omega, show ¬ 10 + i < 10 by omega, show 6 ≤ 10 + i - 4 by omega,
    BitVec.getLsbD_of_ge o (10 + i) (by omega)]

/-- The three fields tile the word: no bit is unused (R53). -/
theorem joinFields_fields (w : Word) : joinFields (sourceField w) (targetField w) (opcodeField w) = w := by
  apply BitVec.eq_of_getLsbD_eq
  intro i hi
  simp only [joinFields, sourceField, targetField, opcodeField, BitVec.getLsbD_or, BitVec.getLsbD_shiftLeft,
    BitVec.getLsbD_setWidth, BitVec.getLsbD_extractLsb']
  by_cases h1 : i < 4
  · simp [h1, show i < 10 by omega, show i < 16 by omega]
  · by_cases h2 : i < 10
    · simp [h1, h2, show i - 4 < 6 by omega, show 4 + (i - 4) = i by omega, show i < 16 by omega, show i - 4 < 16 by omega]
    · simp [h1, h2, show i - 10 < 6 by omega, show 10 + (i - 10) = i by omega, show i < 16 by omega,
        show i - 10 < 16 by omega, show ¬ i - 4 < 6 by omega]

/-! ### Operand codes -/

@[simp] theorem Operand.ofCode_code (op : Operand) : Operand.ofCode op.code = op := by
  cases op with
  | reg r | ind r | idx r => cases r <;> rfl
  | pop | peek | push | sp | pc | o | abs | lit => rfl
  | small n => revert n; decide

@[simp] theorem Operand.code_ofCode (c : BitVec 6) : (Operand.ofCode c).code = c := by
  revert c
  decide

/-- `extra` by the code's number (R50). -/
theorem Operand.extra_ofCode (c : BitVec 6) :
    (Operand.ofCode c).extra =
      if (0x10 ≤ c.toNat ∧ c.toNat ≤ 0x17) ∨ c.toNat = 0x1e ∨ c.toNat = 0x1f then 1 else 0 := by
  revert c
  decide

/-! ### Opcode numbers -/

@[simp] theorem BasicOp.ofNumber_number (op : BasicOp) : BasicOp.ofNumber op.number = some op := by cases op <;> rfl

@[simp] theorem BasicOp.ofNumber_zero : BasicOp.ofNumber 0 = none := rfl

theorem BasicOp.number_of_ofNumber {n : BitVec 4} {op : BasicOp} (h : BasicOp.ofNumber n = some op) : op.number = n := by
  have all : ∀ n : BitVec 4, ∀ op ∈ BasicOp.ofNumber n, op.number = n := by decide
  exact all n op h

/-- Opcode 0 is the only one with no basic operation (R56). -/
theorem BasicOp.ofNumber_eq_none {n : BitVec 4} : BasicOp.ofNumber n = none ↔ n = 0 := by
  revert n
  decide

@[simp] theorem Instr.first_ofBasic (op : BasicOp) (t a : Operand) : (Instr.ofBasic op t a).first = t := by
  cases op <;> rfl

@[simp] theorem Instr.second_ofBasic (op : BasicOp) (t a : Operand) : (Instr.ofBasic op t a).second = some a := by
  cases op <;> rfl

@[simp] theorem encode_ofBasic (op : BasicOp) (t a : Operand) : encode (Instr.ofBasic op t a) = basicWord op t a := by
  cases op <;> rfl

@[simp] theorem wellFormed_ofBasic (op : BasicOp) (t a : Operand) : (Instr.ofBasic op t a).wellFormed = true := by
  cases op <;> rfl

end Sys2Proof
end

