-- ==== Sys2Proof/Laws/State.lean ====
section
/-! SUPPORT. One lemma per field of `State` per update, and the register file's read after write, so that no later proof
unfolds a record update. -/

namespace Sys2Proof.Machine

@[simp] theorem State.setReg_regs (s : State) (r : Reg) (v : Word) : (s.setReg r v).regs = s.regs.set r v := rfl
@[simp] theorem State.setReg_sp (s : State) (r : Reg) (v : Word) : (s.setReg r v).sp = s.sp := rfl
@[simp] theorem State.setReg_pc (s : State) (r : Reg) (v : Word) : (s.setReg r v).pc = s.pc := rfl
@[simp] theorem State.setReg_o (s : State) (r : Reg) (v : Word) : (s.setReg r v).o = s.o := rfl
@[simp] theorem State.setReg_skip (s : State) (r : Reg) (v : Word) : (s.setReg r v).skip = s.skip := rfl
@[simp] theorem State.setReg_steps (s : State) (r : Reg) (v : Word) : (s.setReg r v).steps = s.steps := rfl
@[simp] theorem State.setReg_mem (s : State) (r : Reg) (v : Word) : (s.setReg r v).mem = s.mem := rfl
@[simp] theorem State.setReg_trace (s : State) (r : Reg) (v : Word) : (s.setReg r v).trace = s.trace := rfl
@[simp] theorem State.setReg_notified (s : State) (r : Reg) (v : Word) : (s.setReg r v).notified = s.notified := rfl
@[simp] theorem State.setReg_running (s : State) (r : Reg) (v : Word) : (s.setReg r v).running = s.running := rfl

@[simp] theorem State.setSp_regs (s : State) (v : Word) : (s.setSp v).regs = s.regs := rfl
@[simp] theorem State.setSp_sp (s : State) (v : Word) : (s.setSp v).sp = v := rfl
@[simp] theorem State.setSp_pc (s : State) (v : Word) : (s.setSp v).pc = s.pc := rfl
@[simp] theorem State.setSp_o (s : State) (v : Word) : (s.setSp v).o = s.o := rfl
@[simp] theorem State.setSp_skip (s : State) (v : Word) : (s.setSp v).skip = s.skip := rfl
@[simp] theorem State.setSp_steps (s : State) (v : Word) : (s.setSp v).steps = s.steps := rfl
@[simp] theorem State.setSp_mem (s : State) (v : Word) : (s.setSp v).mem = s.mem := rfl
@[simp] theorem State.setSp_trace (s : State) (v : Word) : (s.setSp v).trace = s.trace := rfl
@[simp] theorem State.setSp_notified (s : State) (v : Word) : (s.setSp v).notified = s.notified := rfl
@[simp] theorem State.setSp_running (s : State) (v : Word) : (s.setSp v).running = s.running := rfl

@[simp] theorem State.setPc_regs (s : State) (v : Word) : (s.setPc v).regs = s.regs := rfl
@[simp] theorem State.setPc_sp (s : State) (v : Word) : (s.setPc v).sp = s.sp := rfl
@[simp] theorem State.setPc_pc (s : State) (v : Word) : (s.setPc v).pc = v := rfl
@[simp] theorem State.setPc_o (s : State) (v : Word) : (s.setPc v).o = s.o := rfl
@[simp] theorem State.setPc_skip (s : State) (v : Word) : (s.setPc v).skip = s.skip := rfl
@[simp] theorem State.setPc_steps (s : State) (v : Word) : (s.setPc v).steps = s.steps := rfl
@[simp] theorem State.setPc_mem (s : State) (v : Word) : (s.setPc v).mem = s.mem := rfl
@[simp] theorem State.setPc_trace (s : State) (v : Word) : (s.setPc v).trace = s.trace := rfl
@[simp] theorem State.setPc_notified (s : State) (v : Word) : (s.setPc v).notified = s.notified := rfl
@[simp] theorem State.setPc_running (s : State) (v : Word) : (s.setPc v).running = s.running := rfl

@[simp] theorem State.setO_regs (s : State) (v : Word) : (s.setO v).regs = s.regs := rfl
@[simp] theorem State.setO_sp (s : State) (v : Word) : (s.setO v).sp = s.sp := rfl
@[simp] theorem State.setO_pc (s : State) (v : Word) : (s.setO v).pc = s.pc := rfl
@[simp] theorem State.setO_o (s : State) (v : Word) : (s.setO v).o = v := rfl
@[simp] theorem State.setO_skip (s : State) (v : Word) : (s.setO v).skip = s.skip := rfl
@[simp] theorem State.setO_steps (s : State) (v : Word) : (s.setO v).steps = s.steps := rfl
@[simp] theorem State.setO_mem (s : State) (v : Word) : (s.setO v).mem = s.mem := rfl
@[simp] theorem State.setO_trace (s : State) (v : Word) : (s.setO v).trace = s.trace := rfl
@[simp] theorem State.setO_notified (s : State) (v : Word) : (s.setO v).notified = s.notified := rfl
@[simp] theorem State.setO_running (s : State) (v : Word) : (s.setO v).running = s.running := rfl

@[simp] theorem State.setSkip_regs (s : State) (b : Bool) : (s.setSkip b).regs = s.regs := rfl
@[simp] theorem State.setSkip_sp (s : State) (b : Bool) : (s.setSkip b).sp = s.sp := rfl
@[simp] theorem State.setSkip_pc (s : State) (b : Bool) : (s.setSkip b).pc = s.pc := rfl
@[simp] theorem State.setSkip_o (s : State) (b : Bool) : (s.setSkip b).o = s.o := rfl
@[simp] theorem State.setSkip_skip (s : State) (b : Bool) : (s.setSkip b).skip = b := rfl
@[simp] theorem State.setSkip_steps (s : State) (b : Bool) : (s.setSkip b).steps = s.steps := rfl
@[simp] theorem State.setSkip_mem (s : State) (b : Bool) : (s.setSkip b).mem = s.mem := rfl
@[simp] theorem State.setSkip_trace (s : State) (b : Bool) : (s.setSkip b).trace = s.trace := rfl
@[simp] theorem State.setSkip_notified (s : State) (b : Bool) : (s.setSkip b).notified = s.notified := rfl
@[simp] theorem State.setSkip_running (s : State) (b : Bool) : (s.setSkip b).running = s.running := rfl

@[simp] theorem State.setRunning_regs (s : State) (b : Bool) : (s.setRunning b).regs = s.regs := rfl
@[simp] theorem State.setRunning_sp (s : State) (b : Bool) : (s.setRunning b).sp = s.sp := rfl
@[simp] theorem State.setRunning_pc (s : State) (b : Bool) : (s.setRunning b).pc = s.pc := rfl
@[simp] theorem State.setRunning_o (s : State) (b : Bool) : (s.setRunning b).o = s.o := rfl
@[simp] theorem State.setRunning_skip (s : State) (b : Bool) : (s.setRunning b).skip = s.skip := rfl
@[simp] theorem State.setRunning_steps (s : State) (b : Bool) : (s.setRunning b).steps = s.steps := rfl
@[simp] theorem State.setRunning_mem (s : State) (b : Bool) : (s.setRunning b).mem = s.mem := rfl
@[simp] theorem State.setRunning_trace (s : State) (b : Bool) : (s.setRunning b).trace = s.trace := rfl
@[simp] theorem State.setRunning_notified (s : State) (b : Bool) : (s.setRunning b).notified = s.notified := rfl
@[simp] theorem State.setRunning_running (s : State) (b : Bool) : (s.setRunning b).running = b := rfl

@[simp] theorem State.publish_regs (s : State) (e : Event) : (s.publish e).regs = s.regs := rfl
@[simp] theorem State.publish_sp (s : State) (e : Event) : (s.publish e).sp = s.sp := rfl
@[simp] theorem State.publish_pc (s : State) (e : Event) : (s.publish e).pc = s.pc := rfl
@[simp] theorem State.publish_o (s : State) (e : Event) : (s.publish e).o = s.o := rfl
@[simp] theorem State.publish_skip (s : State) (e : Event) : (s.publish e).skip = s.skip := rfl
@[simp] theorem State.publish_steps (s : State) (e : Event) : (s.publish e).steps = s.steps := rfl
@[simp] theorem State.publish_mem (s : State) (e : Event) : (s.publish e).mem = s.mem := rfl
@[simp] theorem State.publish_trace (s : State) (e : Event) : (s.publish e).trace = s.trace ++ [e] := rfl
@[simp] theorem State.publish_notified (s : State) (e : Event) : (s.publish e).notified = s.notified := rfl
@[simp] theorem State.publish_running (s : State) (e : Event) : (s.publish e).running = s.running := rfl

@[simp] theorem State.publishAll_regs (s : State) (es : List Event) : (s.publishAll es).regs = s.regs := rfl
@[simp] theorem State.publishAll_sp (s : State) (es : List Event) : (s.publishAll es).sp = s.sp := rfl
@[simp] theorem State.publishAll_pc (s : State) (es : List Event) : (s.publishAll es).pc = s.pc := rfl
@[simp] theorem State.publishAll_o (s : State) (es : List Event) : (s.publishAll es).o = s.o := rfl
@[simp] theorem State.publishAll_skip (s : State) (es : List Event) : (s.publishAll es).skip = s.skip := rfl
@[simp] theorem State.publishAll_steps (s : State) (es : List Event) : (s.publishAll es).steps = s.steps := rfl
@[simp] theorem State.publishAll_mem (s : State) (es : List Event) : (s.publishAll es).mem = s.mem := rfl
@[simp] theorem State.publishAll_trace (s : State) (es : List Event) : (s.publishAll es).trace = s.trace ++ es := rfl
@[simp] theorem State.publishAll_notified (s : State) (es : List Event) : (s.publishAll es).notified = s.notified := rfl
@[simp] theorem State.publishAll_running (s : State) (es : List Event) : (s.publishAll es).running = s.running := rfl

@[simp] theorem State.poke_regs (s : State) (a : Nat) (v : Word) : (s.poke a v).regs = s.regs := rfl
@[simp] theorem State.poke_sp (s : State) (a : Nat) (v : Word) : (s.poke a v).sp = s.sp := rfl
@[simp] theorem State.poke_pc (s : State) (a : Nat) (v : Word) : (s.poke a v).pc = s.pc := rfl
@[simp] theorem State.poke_o (s : State) (a : Nat) (v : Word) : (s.poke a v).o = s.o := rfl
@[simp] theorem State.poke_skip (s : State) (a : Nat) (v : Word) : (s.poke a v).skip = s.skip := rfl
@[simp] theorem State.poke_steps (s : State) (a : Nat) (v : Word) : (s.poke a v).steps = s.steps := rfl
@[simp] theorem State.poke_mem (s : State) (a : Nat) (v : Word) : (s.poke a v).mem = s.mem.store a v := rfl
@[simp] theorem State.poke_trace (s : State) (a : Nat) (v : Word) : (s.poke a v).trace = s.trace := rfl
@[simp] theorem State.poke_notified (s : State) (a : Nat) (v : Word) : (s.poke a v).notified = s.notified := rfl
@[simp] theorem State.poke_running (s : State) (a : Nat) (v : Word) : (s.poke a v).running = s.running := rfl

@[simp] theorem finish_regs (len : Nat) (p : Bool) (s : State) : (finish len p s).regs = s.regs := rfl
@[simp] theorem finish_sp (len : Nat) (p : Bool) (s : State) : (finish len p s).sp = s.sp := rfl
@[simp] theorem finish_pc (len : Nat) (p : Bool) (s : State) : (finish len p s).pc = if p then s.pc else reduce (s.pc.toNat + len) := rfl
@[simp] theorem finish_o (len : Nat) (p : Bool) (s : State) : (finish len p s).o = s.o := rfl
@[simp] theorem finish_skip (len : Nat) (p : Bool) (s : State) : (finish len p s).skip = s.skip := rfl
@[simp] theorem finish_steps (len : Nat) (p : Bool) (s : State) : (finish len p s).steps = s.steps + 1 := rfl
@[simp] theorem finish_mem (len : Nat) (p : Bool) (s : State) : (finish len p s).mem = s.mem := rfl
@[simp] theorem finish_trace (len : Nat) (p : Bool) (s : State) : (finish len p s).trace = s.trace := rfl
@[simp] theorem finish_notified (len : Nat) (p : Bool) (s : State) : (finish len p s).notified = s.notified + 1 := rfl
@[simp] theorem finish_running (len : Nat) (p : Bool) (s : State) : (finish len p s).running = s.running := rfl

@[simp] theorem memReset_regs (s : State) : (memReset s).regs = s.regs := rfl
@[simp] theorem memReset_sp (s : State) : (memReset s).sp = s.sp := rfl
@[simp] theorem memReset_pc (s : State) : (memReset s).pc = s.pc := rfl
@[simp] theorem memReset_o (s : State) : (memReset s).o = s.o := rfl
@[simp] theorem memReset_skip (s : State) : (memReset s).skip = s.skip := rfl
@[simp] theorem memReset_steps (s : State) : (memReset s).steps = s.steps := rfl
@[simp] theorem memReset_mem (s : State) : (memReset s).mem = [] := rfl
@[simp] theorem memReset_trace (s : State) : (memReset s).trace = s.trace := rfl
@[simp] theorem memReset_notified (s : State) : (memReset s).notified = s.notified := rfl
@[simp] theorem memReset_running (s : State) : (memReset s).running = s.running := rfl

@[simp] theorem Fault.outOfRange_left (a : Nat) (s : State) : (Fault.outOfRange a s).left = s := rfl
@[simp] theorem Fault.valueTooLarge_left (v : Nat) (s : State) : (Fault.valueTooLarge v s).left = s := rfl
@[simp] theorem Fault.invalidTarget_left (c : BitVec 6) (s : State) : (Fault.invalidTarget c s).left = s := rfl

@[simp] theorem Regs.get_set (g : Regs) (r q : Reg) (v : Word) : (g.set r v).get q = if q = r then v else g.get q := by
  cases r <;> cases q <;> rfl

theorem publishAll_nil (s : State) : s.publishAll [] = s := by simp [State.publishAll]

theorem publishAll_append (s : State) (es fs : List Event) :
    (s.publishAll es).publishAll fs = s.publishAll (es ++ fs) := by
  simp [State.publishAll]

theorem publish_eq_publishAll (s : State) (e : Event) : s.publish e = s.publishAll [e] := rfl

end Sys2Proof.Machine
end

