-- ==== Sys2Proof/Laws/Memory.lean ====
section
/-! SUPPORT. The laws of memory: read after write, the canonical form kept, and equal memories from equal reads. -/

namespace Sys2Proof.Machine

@[simp] theorem Memory.load_nil (a : Nat) : Memory.load [] a = 0 := rfl

theorem Memory.load_cons (k : Nat) (w : Word) (m : Memory) (a : Nat) :
    Memory.load ((k, w) :: m) a = if k = a then w else m.load a := rfl

theorem Memory.load_insertCell (m : Memory) (a b : Nat) (v : Word) :
    (m.insertCell a v).load b = if b = a then v else m.load b := by
  induction m with
  | nil => simp [Memory.insertCell, Memory.load_cons, eq_comm]
  | cons c m ih =>
    obtain ⟨k, w⟩ := c
    by_cases h1 : a < k
    · simp [Memory.insertCell, h1, Memory.load_cons, eq_comm]
    · by_cases h2 : a = k
      · subst h2
        by_cases h3 : b = a
        · simp [Memory.insertCell, Memory.load_cons, h3]
        · simp [Memory.insertCell, Memory.load_cons, h3, Ne.symm h3]
      · by_cases h3 : k = b
        · subst h3
          simp [Memory.insertCell, Memory.load_cons, h1, h2, Ne.symm h2]
        · simp [Memory.insertCell, Memory.load_cons, h1, h2, h3, ih]

theorem Memory.load_filter (m : Memory) (a b : Nat) :
    Memory.load (m.filter fun c => c.1 != a) b = if b = a then 0 else m.load b := by
  induction m with
  | nil => simp
  | cons c m ih =>
    obtain ⟨k, w⟩ := c
    by_cases h : k = a
    · subst h
      by_cases h3 : b = k
      · subst h3
        simpa using ih
      · simp [ih, h3, Memory.load_cons, Ne.symm h3]
    · by_cases h3 : k = b
      · subst h3
        simp [h, Memory.load_cons]
      · simp [h, Memory.load_cons, h3, ih]

/-- Read after write: the address stored to reads the value, every other address reads as before (20_memory.md R34). -/
@[simp] theorem Memory.load_store (m : Memory) (a b : Nat) (v : Word) :
    (m.store a v).load b = if b = a then v else m.load b := by
  unfold Memory.store
  split
  · rename_i h
    subst h
    exact Memory.load_filter m a b
  · exact Memory.load_insertCell m a b v

/-- The canonical form, cell by cell. -/
theorem Memory.wf_cons (k : Nat) (w : Word) (m : Memory) :
    Memory.wf ((k, w) :: m) = true ↔ k < Config.capacity ∧ w ≠ 0 ∧ (∀ c ∈ m, k < c.1) ∧ m.wf = true := by
  simp [Memory.wf, and_assoc]

theorem Memory.mem_insertCell {m : Memory} {a : Nat} {v : Word} {c : WordCell} (h : c ∈ m.insertCell a v) :
    c = (a, v) ∨ c ∈ m := by
  induction m with
  | nil => simpa [Memory.insertCell] using h
  | cons d m ih =>
    obtain ⟨k, w⟩ := d
    simp only [Memory.insertCell] at h
    split at h
    · simpa using h
    · split at h
      · rcases List.mem_cons.1 h with h | h
        · exact .inl h
        · exact .inr (List.mem_cons_of_mem _ h)
      · rcases List.mem_cons.1 h with h | h
        · exact .inr (by simp [h])
        · rcases ih h with h | h
          · exact .inl h
          · exact .inr (List.mem_cons_of_mem _ h)

theorem Memory.wf_insertCell {m : Memory} {a : Nat} {v : Word} (hm : m.wf = true) (ha : a < Config.capacity) (hv : v ≠ 0) :
    (m.insertCell a v).wf = true := by
  induction m with
  | nil => exact (Memory.wf_cons _ _ _).2 ⟨ha, hv, by simp, rfl⟩
  | cons d m ih =>
    obtain ⟨k, w⟩ := d
    obtain ⟨hk, hw, hlt, hwf⟩ := (Memory.wf_cons k w m).1 hm
    simp only [Memory.insertCell]
    split
    · rename_i h
      refine (Memory.wf_cons _ _ _).2 ⟨ha, hv, ?_, hm⟩
      intro c hc
      rcases List.mem_cons.1 hc with hc | hc
      · simpa [hc] using h
      · exact h.trans (hlt c hc)
    · split
      · rename_i h
        subst h
        exact (Memory.wf_cons _ _ _).2 ⟨ha, hv, hlt, hwf⟩
      · rename_i h1 h2
        refine (Memory.wf_cons _ _ _).2 ⟨hk, hw, ?_, ih hwf⟩
        intro c hc
        rcases Memory.mem_insertCell hc with hc | hc
        · simp only [hc]
          omega
        · exact hlt c hc

theorem Memory.wf_filter {m : Memory} (p : WordCell → Bool) (hm : m.wf = true) : Memory.wf (m.filter p) = true := by
  induction m with
  | nil => rfl
  | cons d m ih =>
    obtain ⟨k, w⟩ := d
    obtain ⟨hk, hw, hlt, hm⟩ := (Memory.wf_cons k w m).1 hm
    rw [List.filter_cons]
    split
    · exact (Memory.wf_cons _ _ _).2 ⟨hk, hw, fun c hc => hlt c (List.mem_of_mem_filter hc), ih hm⟩
    · exact ih hm

/-- A store below capacity keeps the canonical form. -/
theorem Memory.wf_store {m : Memory} {a : Nat} (v : Word) (hm : m.wf = true) (ha : a < Config.capacity) :
    (m.store a v).wf = true := by
  unfold Memory.store
  split
  · exact Memory.wf_filter _ hm
  · exact Memory.wf_insertCell hm ha ‹_›

theorem Memory.wf_nil : Memory.wf [] = true := rfl

theorem Memory.load_eq_zero_of_lt {m : Memory} {a : Nat} (h : ∀ c ∈ m, a < c.1) : m.load a = 0 := by
  induction m with
  | nil => rfl
  | cons d m ih =>
    obtain ⟨k, w⟩ := d
    have hk : a < k := h (k, w) (by simp)
    rw [Memory.load_cons, if_neg (by omega), ih fun c hc => h c (List.mem_cons_of_mem _ hc)]

/-- `MemWrite` with both checks passed (20_memory.md R32). -/
theorem memWrite_ok {a v : Nat} (ha : a < Config.capacity) (hv : v ≤ 0xFFFF) (s : State) :
    memWrite a v s = .ok ((s.poke a (reduce v)).publish (.wr (reduce a) (reduce v))) := by
  simp [memWrite, Nat.not_lt.2 hv, Nat.not_le.2 ha]

/-- Every way `MemWrite` can end: the store and its event, or the state as it was (R32). -/
theorem memWrite_cases (a v : Nat) (s : State) :
    (0xFFFF < v ∧ memWrite a v s = .error (.valueTooLarge v s)) ∨
    (v ≤ 0xFFFF ∧ Config.capacity ≤ a ∧ memWrite a v s = .error (.outOfRange a s)) ∨
    (v ≤ 0xFFFF ∧ a < Config.capacity ∧
      memWrite a v s = .ok ((s.poke a (reduce v)).publish (.wr (reduce a) (reduce v)))) := by
  by_cases hv : 0xFFFF < v
  · exact .inl ⟨hv, by simp [memWrite, hv, raise]⟩
  · by_cases ha : Config.capacity ≤ a
    · exact .inr (.inl ⟨by omega, ha, by simp [memWrite, hv, ha, raise]⟩)
    · exact .inr (.inr ⟨by omega, by omega, memWrite_ok (by omega) (by omega) s⟩)

theorem word_lt_capacity (w : Word) : w.toNat < Config.capacity := w.isLt

@[simp] theorem reduce_toNat_word (w : Word) : reduce w.toNat = w := by simp

/-- A write by the Cpu, whose address and value are Words, never fails (10_state.md R10, 60_exceptions.md R182). -/
theorem memWrite_word (a v : Word) (s : State) :
    memWrite a.toNat v.toNat s = .ok ((s.poke a.toNat v).publish (.wr a v)) := by
  rw [memWrite_ok a.isLt (by have := v.isLt; omega)]
  simp

/-- `MemRead` in range (R31). -/
theorem memRead_ok {a : Nat} (ha : a < Config.capacity) (s : State) :
    memRead a s = .ok (s.mem.load a, s.publish (.rd (reduce a) (s.mem.load a))) := by
  simp [memRead, Nat.not_le.2 ha]

/-- `MemRead` out of range (R31). -/
theorem memRead_error {a : Nat} (ha : Config.capacity ≤ a) (s : State) :
    memRead a s = .error (.outOfRange a s) := by
  simp [memRead, ha, raise]

end Sys2Proof.Machine
end

