-- ==== Sys2Proof/Laws/Operands.lean ====
section
/-! SUPPORT. What operand resolution, stack effects and the write contract do, said once: later proofs cite these and unfold
none of the three (40_step_and_operands.md R73 to R86). -/

namespace Sys2Proof.Machine

/-- The record resolution answers, by the operand table (30_encoding.md R54). -/
def resolved (op : Operand) (len : Nat) (s : State) : Resolved :=
  ⟨op.code, operandLoc op len s, operandValue op len s, decide (op.extra = 1)⟩

/-! ### The operand terms read the registers and memory only, never the trace -/

section
variable (op : Operand) (len : Nat) (s : State) (es : List Event)

@[simp] theorem nextWordAt_publishAll : (s.publishAll es).nextWordAt len = s.nextWordAt len := rfl

@[simp] theorem operandAddress_publishAll : operandAddress op len (s.publishAll es) = operandAddress op len s := by
  cases op <;> rfl

@[simp] theorem operandLoc_publishAll : operandLoc op len (s.publishAll es) = operandLoc op len s := by
  cases op <;> rfl

@[simp] theorem operandValue_publishAll : operandValue op len (s.publishAll es) = operandValue op len s := by
  cases op <;> rfl

@[simp] theorem operandFault_publishAll : operandFault op len (s.publishAll es) = operandFault op len s := by
  cases op <;> rfl

@[simp] theorem nextWordReads_publishAll : nextWordReads op len (s.publishAll es) = nextWordReads op len s := rfl

@[simp] theorem operandReads_publishAll : operandReads op len (s.publishAll es) = operandReads op len s := by
  cases op <;> rfl

@[simp] theorem resolved_publishAll : resolved op len (s.publishAll es) = resolved op len s := by
  cases op <;> rfl
end

/-! ### Resolution -/

theorem Operand.extra_le_one (op : Operand) : op.extra ≤ 1 := by cases op <;> simp [Operand.extra]

@[simp] theorem resolved_words (op : Operand) (len : Nat) (s : State) : (resolved op len s).words = op.extra := by
  cases op <;> rfl

theorem memOperand_ok (code : BitVec 6) {a : Nat} (extra : Bool) (ha : a < Config.capacity) (s : State) :
    memOperand code a extra s =
      .ok (⟨code, .mem (reduce a), s.mem.load a, extra⟩, s.publishAll [.rd (reduce a) (s.mem.load a)]) := by
  simp [memOperand, memRead_ok ha, publish_eq_publishAll]

theorem memOperand_error (code : BitVec 6) {a : Nat} (extra : Bool) (ha : Config.capacity ≤ a) (s : State) :
    memOperand code a extra s = .error (.outOfRange a s) := by
  simp [memOperand, memRead_error ha]

theorem nextWord_ok {len : Nat} {s : State} (h : s.pc.toNat + len < Config.capacity) :
    nextWord len s =
      .ok (s.nextWordAt len, s.publishAll [.rd (reduce (s.pc.toNat + len)) (s.nextWordAt len)]) :=
  memRead_ok h s

theorem nextWord_error {len : Nat} {s : State} (h : Config.capacity ≤ s.pc.toNat + len) :
    nextWord len s = .error (.outOfRange (s.pc.toNat + len) s) :=
  memRead_error h s

/-- Everything resolution can do: the table's record with the reads published, or OutOfRange at the first address past the
top with the reads before it published (R73 to R82, 60_exceptions.md R181). -/
theorem resolve_eq (op : Operand) (len : Nat) (s : State) :
    resolve op len s =
      match operandFault op len s with
      | some n => .error (.outOfRange n (s.publishAll (nextWordReads op len s)))
      | none => .ok (resolved op len s, s.publishAll (operandReads op len s)) := by
  cases op with
  | reg | sp | pc | o | small =>
    simp [resolve, operandFault, operandAddress, resolved, operandLoc, operandValue, operandReads, nextWordReads,
      Operand.extra, publishAll_nil]
  | ind r =>
    have h := word_lt_capacity (s.regs.get r)
    simp [resolve, operandFault, operandAddress, resolved, operandLoc, operandValue, operandReads, nextWordReads,
      Operand.extra, memOperand_ok _ _ h, Nat.not_le.2 h]
  | pop | peek =>
    have h := word_lt_capacity s.sp
    simp [resolve, operandFault, operandAddress, resolved, operandLoc, operandValue, operandReads, nextWordReads,
      Operand.extra, memOperand_ok _ _ h, Nat.not_le.2 h]
  | push =>
    simp only [resolve, operandFault, operandAddress, resolved, operandLoc, operandValue, operandReads, nextWordReads,
      Operand.extra]
    have h := word_lt_capacity (s.sp - 1)
    generalize s.sp - 1 = p at h
    simp [memOperand_ok _ _ h, Nat.not_le.2 h]
  | lit =>
    by_cases h : s.pc.toNat + len < Config.capacity
    · simp [resolve, operandFault, operandAddress, resolved, operandLoc, operandValue, operandReads, nextWordReads,
        Operand.extra, nextWord_ok h, h, Nat.not_le.2 h]
    · simp [resolve, operandFault, nextWordReads, Operand.extra, nextWord_error (Nat.not_lt.1 h), h, Nat.not_lt.1 h,
        publishAll_nil]
  | abs =>
    by_cases h : s.pc.toNat + len < Config.capacity
    · have h' := word_lt_capacity (s.nextWordAt len)
      simp [resolve, operandFault, operandAddress, resolved, operandLoc, operandValue, operandReads, nextWordReads,
        Operand.extra, nextWord_ok h, h, Nat.not_le.2 h, memOperand_ok _ _ h', Nat.not_le.2 h', publishAll_append]
    · simp [resolve, operandFault, nextWordReads, Operand.extra, nextWord_error (Nat.not_lt.1 h), h, Nat.not_lt.1 h,
        publishAll_nil]
  | idx r =>
    by_cases h : s.pc.toNat + len < Config.capacity
    · by_cases h' : (s.nextWordAt len).toNat + (s.regs.get r).toNat < Config.capacity
      · simp [resolve, operandFault, operandAddress, resolved, operandLoc, operandValue, operandReads, nextWordReads,
          Operand.extra, nextWord_ok h, h, Nat.not_le.2 h, memOperand_ok _ _ h', Nat.not_le.2 h', publishAll_append]
      · simp [resolve, operandFault, operandAddress, nextWordReads, Operand.extra, nextWord_ok h, h, Nat.not_le.2 h,
          memOperand_error _ _ (Nat.not_lt.1 h'), Nat.not_lt.1 h']
    · simp [resolve, operandFault, nextWordReads, Operand.extra, nextWord_error (Nat.not_lt.1 h), h, Nat.not_lt.1 h,
        publishAll_nil]

theorem resolve_ok {op : Operand} {len : Nat} {s : State} (h : operandFault op len s = none) :
    resolve op len s = .ok (resolved op len s, s.publishAll (operandReads op len s)) := by
  rw [resolve_eq, h]

theorem resolve_error {op : Operand} {len n : Nat} {s : State} (h : operandFault op len s = some n) :
    resolve op len s = .error (.outOfRange n (s.publishAll (nextWordReads op len s))) := by
  rw [resolve_eq, h]

/-- An operand that resolves names an address below capacity. -/
theorem operandAddress_lt {op : Operand} {len n : Nat} {s : State} (h : operandFault op len s = none)
    (ha : operandAddress op len s = some n) : n < Config.capacity := by
  unfold operandFault at h
  split at h
  · cases h
  · rw [ha] at h
    by_contra hn
    simp [Nat.not_lt.1 hn] at h

/-! ### Stack effects -/

/-- The stack effect of a resolved operand moves SP by the operand's delta and nothing else (R85). -/
theorem stackEffect_resolved (op : Operand) (len : Nat) (s0 s : State) :
    stackEffect (resolved op len s0) s = s.setSp (s.sp + stackDelta op) := by
  have same : s.setSp (s.sp + 0) = s := by simp [State.setSp]
  cases op with
  | reg r => cases r <;> simpa [stackEffect, resolved, Operand.code, Reg.index, stackDelta] using same.symm
  | ind r => cases r <;> simpa [stackEffect, resolved, Operand.code, Reg.index, stackDelta] using same.symm
  | idx r => cases r <;> simpa [stackEffect, resolved, Operand.code, Reg.index, stackDelta] using same.symm
  | pop => rfl
  | push =>
    have : s.sp - 1 = s.sp + 0xFFFF := by rw [BitVec.sub_eq_add_neg]; rfl
    simp only [stackEffect, resolved, Operand.code, stackDelta, this]
    rfl
  | peek | sp | pc | o | abs | lit => simpa [stackEffect, resolved, Operand.code, stackDelta] using same.symm
  | small n =>
    have h : ∀ n : BitVec 5, (Operand.small n).code ≠ 0x18 ∧ (Operand.small n).code ≠ 0x1a := by decide
    have h1 : (resolved (.small n) len s0).code ≠ 0x18 := (h n).1
    have h2 : (resolved (.small n) len s0).code ≠ 0x1a := (h n).2
    unfold stackEffect
    rw [if_neg h1, if_neg h2]
    exact same.symm

/-! ### The write contract -/

/-- The state after the write of a target that is no literal (R86). -/
def written (t : Operand) (len : Nat) (v : Word) (s0 s : State) : State :=
  match operandLoc t len s0 with
  | .reg r => s.setReg r v
  | .sp => s.setSp v
  | .o => s.setO v
  | .pc => s.setPc v
  | .mem a => (s.poke a.toNat v).publish (.wr a v)
  | .none => s

theorem operandLoc_eq_none {t : Operand} {len : Nat} {s : State} : operandLoc t len s = .none ↔ t.isLiteral = true := by
  cases t <;> simp [operandLoc, operandAddress, Operand.isLiteral]

theorem operandLoc_eq_pc {t : Operand} {len : Nat} {s : State} : operandLoc t len s = .pc ↔ t = .pc := by
  cases t <;> simp [operandLoc, operandAddress]

/-- The write of a target that is no literal succeeds, and says whether PC was it (R86). -/
theorem writeOperand_ok {t : Operand} (ht : t.isLiteral = false) (len : Nat) (v : Word) (s0 s : State) :
    writeOperand (resolved t len s0) v s = .ok (written t len v s0 s, decide (t = .pc)) := by
  have hpc : (t = .pc) ↔ operandLoc t len s0 = .pc := operandLoc_eq_pc.symm
  unfold writeOperand written
  simp only [resolved]
  cases h : operandLoc t len s0 with
  | none => simp [operandLoc_eq_none.1 h] at ht
  | mem a => simp [memWrite_word, hpc, h]
  | reg | sp | o | pc => simp [hpc, h]

/-- The write of a literal target is InvalidTarget (60_exceptions.md R183). -/
theorem writeOperand_literal {t : Operand} (ht : t.isLiteral = true) (len : Nat) (v : Word) (s0 s : State) :
    writeOperand (resolved t len s0) v s = .error (.invalidTarget t.code s) := by
  cases t <;> simp_all [writeOperand, resolved, operandLoc, Operand.isLiteral, raise]

section
variable (t : Operand) (len : Nat) (v : Word) (s0 s : State)

@[simp] theorem written_regs (r : Reg) :
    (written t len v s0 s).regs.get r = if t = .reg r then v else s.regs.get r := by
  cases t <;> simp [written, operandLoc, operandAddress, eq_comm]

@[simp] theorem written_sp : (written t len v s0 s).sp = if t = .sp then v else s.sp := by
  cases t <;> simp [written, operandLoc, operandAddress]

@[simp] theorem written_pc : (written t len v s0 s).pc = if t = .pc then v else s.pc := by
  cases t <;> simp [written, operandLoc, operandAddress]

@[simp] theorem written_o : (written t len v s0 s).o = if t = .o then v else s.o := by
  cases t <;> simp [written, operandLoc, operandAddress]

@[simp] theorem written_skip : (written t len v s0 s).skip = s.skip := by
  cases t <;> simp [written, operandLoc, operandAddress]

@[simp] theorem written_steps : (written t len v s0 s).steps = s.steps := by
  cases t <;> simp [written, operandLoc, operandAddress]

@[simp] theorem written_notified : (written t len v s0 s).notified = s.notified := by
  cases t <;> simp [written, operandLoc, operandAddress]

@[simp] theorem written_running : (written t len v s0 s).running = s.running := by
  cases t <;> simp [written, operandLoc, operandAddress]

/-- Memory after the write: the target's word holds the value, every other word is as it was (R86, 20_memory.md R34). -/
theorem written_load (h : operandFault t len s0 = none) (n : Nat) :
    (written t len v s0 s).mem.load n = if operandAddress t len s0 = some n then v else s.mem.load n := by
  have key : ∀ m : Nat, operandAddress t len s0 = some m → (reduce m).toNat = m := fun m hm => by
    have : m < 65536 := operandAddress_lt h hm
    simp [reduce, Nat.mod_eq_of_lt this]
  cases h' : operandAddress t len s0 with
  | none => cases t <;> simp_all [written, operandLoc, operandAddress]
  | some m =>
    have hm := key m h'
    have hl : operandLoc t len s0 = .mem (reduce m) := by cases t <;> simp_all [operandLoc, operandAddress]
    simp only [written, hl, State.publish_mem, State.poke_mem, Memory.load_store, hm, Option.some.injEq]
    simp only [eq_comm]

/-- The trace after the write: one event for a memory target (20_memory.md R38). -/
theorem written_trace :
    (written t len v s0 s).trace =
      s.trace ++ match operandAddress t len s0 with
        | some n => [.wr (reduce n) v]
        | none => [] := by
  cases t <;> simp [written, operandLoc, operandAddress]
end

end Sys2Proof.Machine
end

