-- ==== Sys2Proof/Laws/Exec.lean ====
section
/-! SUPPORT. What the shared part of the step does with a decoded instruction, said once: out of range it faults, with a skip
pending it passes over, and otherwise it runs the body on the resolved operands (40_step_and_operands.md R70, R84). -/

namespace Sys2Proof.Machine

/-- The state a body is given: the operands' reads published, the stack effects applied (R85). -/
def bodyState (t a : Operand) (s : State) : State :=
  (s.publishAll (operandReads t 1 s ++ operandReads a (1 + t.extra) s)).setSp (s.sp + stackDelta t + stackDelta a)

/-- A basic instruction, whatever its operands. -/
theorem runBasic_eq (t a : Operand) (body : Resolved → Resolved → State → Except Fault (State × Bool)) (s : State) :
    runBasic t a body s =
      match operandFault t 1 s with
      | some n => .fault (.outOfRange n (s.publishAll (nextWordReads t 1 s)))
      | none =>
        match operandFault a (1 + t.extra) s with
        | some n =>
          .fault (.outOfRange n (s.publishAll (operandReads t 1 s ++ nextWordReads a (1 + t.extra) s)))
        | none =>
          if s.skip then
            .next (finish (1 + t.extra + a.extra) false
              ((s.publishAll (operandReads t 1 s ++ operandReads a (1 + t.extra) s)).setSkip false))
          else
            settle (1 + t.extra + a.extra)
              (body (resolved t 1 s) (resolved a (1 + t.extra) s) (bodyState t a s)) := by
  unfold runBasic
  cases ht : operandFault t 1 s with
  | some n => simp [resolve_error ht]
  | none =>
    simp only [resolve_ok ht, resolved_words]
    cases ha : operandFault a (1 + t.extra) s with
    | some n => simp [resolve_error (s := s.publishAll (operandReads t 1 s)) (by simpa using ha), publishAll_append]
    | none =>
      simp [resolve_ok (s := s.publishAll (operandReads t 1 s)) (by simpa using ha), publishAll_append,
        stackEffect_resolved, bodyState]
      rfl

/-- A non-basic instruction, whatever its operand. -/
theorem runNonBasic_eq (a : Operand) (body : Nat → Resolved → State → Except Fault (State × Bool)) (s : State) :
    runNonBasic a body s =
      match operandFault a 1 s with
      | some n => .fault (.outOfRange n (s.publishAll (nextWordReads a 1 s)))
      | none =>
        if s.skip then .next (finish (1 + a.extra) false ((s.publishAll (operandReads a 1 s)).setSkip false))
        else
          settle (1 + a.extra)
            (body (1 + a.extra) (resolved a 1 s) (s.publishAll (operandReads a 1 s))) := by
  unfold runNonBasic
  cases ha : operandFault a 1 s with
  | some n => simp [resolve_error ha]
  | none => simp [resolve_ok ha]

/-- A completed write, settled. -/
theorem settle_writeOperand {t : Operand} (ht : t.isLiteral = false) (len : Nat) (v : Word) (s0 s : State) :
    settle len (writeOperand (resolved t 1 s0) v s) = .next (finish len (decide (t = .pc)) (written t 1 v s0 s)) := by
  rw [writeOperand_ok ht]
  rfl

/-- A completed write with O written after it, settled. -/
theorem settle_writeThenO {t : Operand} (ht : t.isLiteral = false) (len : Nat) (v o : Word) (s0 s : State) :
    settle len (writeThenO (resolved t 1 s0) v o s) =
      .next (finish len (decide (t = .pc)) ((written t 1 v s0 s).setO o)) := by
  unfold writeThenO
  rw [writeOperand_ok ht]
  rfl

/-- A literal target faults before O is written (41_move_arith.md R107). -/
theorem writeThenO_literal {t : Operand} (ht : t.isLiteral = true) (v o : Word) (s0 s : State) :
    writeThenO (resolved t 1 s0) v o s = .error (.invalidTarget t.code s) := by
  unfold writeThenO
  rw [writeOperand_literal ht]

/-- JSR's body always completes: the return address at the new SP, PC at the operand (44_nonbasic_jsr.md R150). -/
theorem callBody_eq (a : Operand) (len : Nat) (s0 s : State) :
    callBody len (resolved a 1 s0) s =
      .ok ((((s.setSp (s.sp + stackDelta a - 1)).poke (s.sp + stackDelta a - 1).toNat
        (reduce (s.pc.toNat + len))).publish (.wr (s.sp + stackDelta a - 1) (reduce (s.pc.toNat + len)))).setPc
          (operandValue a 1 s0), true) := by
  unfold callBody
  simp only [stackEffect_resolved, memWrite_word]
  rfl

/-! ### Completing -/

/-- What `runs` says of a basic instruction that writes its target. -/
theorem runs_writer {i : Instr} {t a : Operand} {s : State} (h1 : i.first = t) (h2 : i.second = some a)
    (h3 : i.writesTarget = true) (h : runs i s = true) :
    s.skip = false ∧ operandFault t 1 s = none ∧ operandFault a (1 + t.extra) s = none ∧ t.isLiteral = false := by
  simp only [runs, readable, writesLiteral, decodeFault, h1, h2, h3, Bool.and_eq_true, Bool.not_eq_true',
    Bool.true_and] at h
  obtain ⟨⟨hs, hr⟩, hl⟩ := h
  cases ht : operandFault t 1 s <;> simp_all

/-- What `readable` says of a basic instruction. -/
theorem readable_basic {i : Instr} {t a : Operand} {s : State} (h1 : i.first = t) (h2 : i.second = some a)
    (h : readable i s = true) : operandFault t 1 s = none ∧ operandFault a (1 + t.extra) s = none := by
  simp only [readable, decodeFault, h1, h2] at h
  cases ht : operandFault t 1 s <;> simp_all

/-- What `readable` says of a non-basic instruction. -/
theorem readable_nonBasic {i : Instr} {a : Operand} {s : State} (h1 : i.first = a) (h2 : i.second = none)
    (h : readable i s = true) : operandFault a 1 s = none := by
  simp only [readable, decodeFault, h1, h2] at h
  cases ht : operandFault a 1 s <;> simp_all

/-- A basic instruction whose operands are in range, with no skip pending, ends as its body does. -/
theorem runBasic_executes {t a : Operand} {s : State} (body : Resolved → Resolved → State → Except Fault (State × Bool))
    (hs : s.skip = false) (ht : operandFault t 1 s = none) (ha : operandFault a (1 + t.extra) s = none) :
    runBasic t a body s =
      settle (1 + t.extra + a.extra) (body (resolved t 1 s) (resolved a (1 + t.extra) s) (bodyState t a s)) := by
  simp [runBasic_eq, ht, ha, hs]

/-- A non-basic instruction whose operand is in range, with no skip pending, ends as its body does. -/
theorem runNonBasic_executes {a : Operand} {s : State} (body : Nat → Resolved → State → Except Fault (State × Bool))
    (hs : s.skip = false) (ha : operandFault a 1 s = none) :
    runNonBasic a body s =
      settle (1 + a.extra) (body (1 + a.extra) (resolved a 1 s) (s.publishAll (operandReads a 1 s))) := by
  simp [runNonBasic_eq, ha, hs]

section
variable {t : Operand} (a : Operand) (v o : Word) {s : State}

/-- What a writer that leaves O alone leaves. -/
theorem writerLeaves_write (hs : s.skip = false) (ht : operandFault t 1 s = none) :
    WriterLeaves t a v (if t = .o then v else s.o) s
      (finish (1 + t.extra + a.extra) (decide (t = .pc)) (written t 1 v s (bodyState t a s))) := by
  constructor <;> simp [bodyState, written_load _ _ _ _ _ ht, hs]
  by_cases h : t = .pc <;> simp [h]

/-- What a writer that writes O first leaves: ADD with a carry, SUB with a borrow (R107). -/
theorem writerLeaves_setO_write (hs : s.skip = false) (ht : operandFault t 1 s = none) :
    WriterLeaves t a v (if t = .o then v else o) s
      (finish (1 + t.extra + a.extra) (decide (t = .pc)) (written t 1 v s ((bodyState t a s).setO o))) := by
  constructor <;> simp [bodyState, written_load _ _ _ _ _ ht, hs]
  by_cases h : t = .pc <;> simp [h]

/-- What a writer that writes O last leaves: MUL, DIV, SHL, SHR (R107). -/
theorem writerLeaves_write_setO (hs : s.skip = false) (ht : operandFault t 1 s = none) :
    WriterLeaves t a v o s
      (finish (1 + t.extra + a.extra) (decide (t = .pc)) ((written t 1 v s (bodyState t a s)).setO o)) := by
  constructor <;> simp [bodyState, written_load _ _ _ _ _ ht, hs]
  by_cases h : t = .pc <;> simp [h]
end

end Sys2Proof.Machine
end

