-- ==== Sys2Proof/Laws/Step.lean ====
section
/-! SUPPORT. Everything an instruction can do, said once: `exec_ending` lists the seven ways `exec` ends, with their guards,
and later proofs take a case of it instead of unfolding a meaning. Beside it, what the fetch leaves. -/

namespace Sys2Proof.Machine

/-! ### The claim terms do not read the trace -/

section
variable (i : Instr) (s : State) (es : List Event)

@[simp] theorem decodeFault_publishAll : decodeFault i (s.publishAll es) = decodeFault i s := by simp [decodeFault]

@[simp] theorem readable_publishAll : readable i (s.publishAll es) = readable i s := by simp [readable]

@[simp] theorem sourceValue_publishAll : sourceValue i (s.publishAll es) = sourceValue i s := by simp [sourceValue]

@[simp] theorem instrReads_publishAll : instrReads i (s.publishAll es) = instrReads i s := by simp [instrReads]

@[simp] theorem readsBeforeFault_publishAll : readsBeforeFault i (s.publishAll es) = readsBeforeFault i s := by
  simp [readsBeforeFault]
end

/-! ### The fetch -/

theorem fetched_eq_publishAll (s : State) : s.fetched = s.publishAll [.rd s.pc (s.mem.load s.pc.toNat)] := rfl

section
variable (s : State)

@[simp] theorem State.fetched_regs : s.fetched.regs = s.regs := rfl
@[simp] theorem State.fetched_sp : s.fetched.sp = s.sp := rfl
@[simp] theorem State.fetched_pc : s.fetched.pc = s.pc := rfl
@[simp] theorem State.fetched_o : s.fetched.o = s.o := rfl
@[simp] theorem State.fetched_skip : s.fetched.skip = s.skip := rfl
@[simp] theorem State.fetched_steps : s.fetched.steps = s.steps := rfl
@[simp] theorem State.fetched_mem : s.fetched.mem = s.mem := rfl
@[simp] theorem State.fetched_notified : s.fetched.notified = s.notified := rfl
@[simp] theorem State.fetched_running : s.fetched.running = s.running := rfl
theorem State.fetched_trace : s.fetched.trace = s.trace ++ [.rd s.pc (s.mem.load s.pc.toNat)] := rfl
end

/-- The fetch cannot fail: PC is a Word (40_step_and_operands.md R71). -/
theorem fetch_eq (s : State) : fetch s = .ok (s.mem.load s.pc.toNat, s.fetched) := by
  simp [fetch, memRead_ok (word_lt_capacity s.pc), State.fetched]

/-! ### O written before or after the target -/

/-- O written with a value, or left alone. -/
def State.optO (s : State) (o : Option Word) : State :=
  match o with
  | none => s
  | some w => s.setO w

section
variable (s : State) (o : Option Word)

@[simp] theorem State.optO_regs : (s.optO o).regs = s.regs := by cases o <;> rfl
@[simp] theorem State.optO_sp : (s.optO o).sp = s.sp := by cases o <;> rfl
@[simp] theorem State.optO_pc : (s.optO o).pc = s.pc := by cases o <;> rfl
@[simp] theorem State.optO_o : (s.optO o).o = o.getD s.o := by cases o <;> rfl
@[simp] theorem State.optO_skip : (s.optO o).skip = s.skip := by cases o <;> rfl
@[simp] theorem State.optO_steps : (s.optO o).steps = s.steps := by cases o <;> rfl
@[simp] theorem State.optO_mem : (s.optO o).mem = s.mem := by cases o <;> rfl
@[simp] theorem State.optO_trace : (s.optO o).trace = s.trace := by cases o <;> rfl
@[simp] theorem State.optO_notified : (s.optO o).notified = s.notified := by cases o <;> rfl
@[simp] theorem State.optO_running : (s.optO o).running = s.running := by cases o <;> rfl
end

/-- The state a basic instruction's body is given, by the instruction. -/
def State.decoded (s : State) (i : Instr) (a : Operand) : State :=
  (s.publishAll (instrReads i s)).setSp (s.sp + stackDelta i.first + stackDelta a)

theorem bodyState_eq_decoded {t a : Operand} {i : Instr} {s : State} (h1 : i.first = t) (h2 : i.second = some a) :
    bodyState t a s = s.decoded i a := by
  simp [bodyState, State.decoded, instrReads, h1, h2]

/-- The state in which a writer's target is written: O is already written where the instruction writes it first (R107). -/
def State.beforeWrite (s : State) (i : Instr) (a : Operand) : State :=
  (s.decoded i a).optO (earlyO i (operandValue i.first 1 s) (sourceValue i s))

/-! ### The seven endings -/

/-- How `exec i s` ends. -/
inductive Ending (i : Instr) (s : State) : Host.Outcome State Fault Refusal → Prop where
  /-- An operand is out of range, skipped or not. -/
  | outOfRange (n : Nat) (fault : decodeFault i s = some n) :
      Ending i s (.fault (.outOfRange n (s.publishAll (readsBeforeFault i s))))
  /-- A skip is pending. -/
  | skipped (range : decodeFault i s = none) (skip : s.skip = true) : Ending i s (.next (passedOver i s))
  /-- A writer writes its target; the O it leaves is the table's unless the target is O. -/
  | wrote (range : decodeFault i s = none) (skip : s.skip = false) (writer : i.writesTarget = true)
      (literal : i.first.isLiteral = false) (a : Operand) (source : i.second = some a) (v : Word) (lateO : Option Word)
      (o : lateO.getD ((earlyO i (operandValue i.first 1 s) (sourceValue i s)).getD s.o) =
        implicitO i (operandValue i.first 1 s) (sourceValue i s) s.o) :
      Ending i s
        (.next (finish i.length (decide (i.first = .pc)) ((written i.first 1 v s (s.beforeWrite i a)).optO lateO)))
  /-- A writer has a literal target. -/
  | literalTarget (range : decodeFault i s = none) (skip : s.skip = false) (writer : i.writesTarget = true)
      (literal : i.first.isLiteral = true) (a : Operand) (source : i.second = some a) :
      Ending i s (.fault (.invalidTarget i.first.code (s.beforeWrite i a)))
  /-- A conditional sets the skip flag exactly when its condition is false. -/
  | compared (range : decodeFault i s = none) (skip : s.skip = false) (writer : i.writesTarget = false)
      (jsr : i.isJsr = false) (a : Operand) (source : i.second = some a) (b : Bool)
      (condition : b = true ↔ conditionFails i (operandValue i.first 1 s) (sourceValue i s)) :
      Ending i s (.next (finish i.length false ((s.decoded i a).setSkip b)))
  /-- An undefined opcode does nothing. -/
  | undefined (range : decodeFault i s = none) (skip : s.skip = false) (opcode : undefinedOpcode i = true) :
      Ending i s (.next (passedOver i s))
  /-- JSR pushes and jumps. -/
  | called (range : decodeFault i s = none) (skip : s.skip = false) (a : Operand) (jsr : i = .jsr a) :
      Ending i s
        (.next (finish i.length true
          (((((s.publishAll (instrReads i s)).setSp (s.sp + stackDelta a - 1)).poke (s.sp + stackDelta a - 1).toNat
            (reduce (s.pc.toNat + i.length))).publish
              (.wr (s.sp + stackDelta a - 1) (reduce (s.pc.toNat + i.length)))).setPc (operandValue a 1 s))))

/-- Every instruction is one of the two shared shapes. -/
theorem exec_shape (i : Instr) :
    (∃ t a body, i.first = t ∧ i.second = some a ∧ ∀ s, exec i s = runBasic t a body s) ∨
    ∃ a body, i.first = a ∧ i.second = none ∧ ∀ s, exec i s = runNonBasic a body s := by
  cases i <;> first | exact .inl ⟨_, _, _, rfl, rfl, fun _ => rfl⟩ | exact .inr ⟨_, _, rfl, rfl, fun _ => rfl⟩

theorem readable_iff {i : Instr} {s : State} : readable i s = true ↔ decodeFault i s = none := by simp [readable]

/-- The fault of an operand out of range, whatever the instruction and the skip flag. -/
theorem exec_of_decodeFault {i : Instr} {s : State} {n : Nat} (h : decodeFault i s = some n) :
    exec i s = .fault (.outOfRange n (s.publishAll (readsBeforeFault i s))) := by
  rcases exec_shape i with ⟨t, a, body, h1, h2, h3⟩ | ⟨a, body, h1, h2, h3⟩
  · rw [h3, runBasic_eq]
    simp only [decodeFault, readsBeforeFault, h1, h2] at *
    cases ht : operandFault t 1 s <;> simp_all
  · rw [h3, runNonBasic_eq]
    simp only [decodeFault, readsBeforeFault, h1, h2] at *
    cases ht : operandFault a 1 s <;> simp_all

theorem ending_of_skip {i : Instr} {s : State} (hs : s.skip = true) (h : decodeFault i s = none) :
    Ending i s (exec i s) := by
  suffices exec i s = .next (passedOver i s) from this ▸ .skipped h hs
  rcases exec_shape i with ⟨t, a, body, h1, h2, h3⟩ | ⟨a, body, h1, h2, h3⟩
  · rw [h3, runBasic_eq]
    simp only [decodeFault, h1, h2] at h
    cases ht : operandFault t 1 s <;> simp_all
    simp [finish, passedOver, instrReads, Instr.length, h1, h2, State.publishAll, State.setSkip, Nat.add_assoc]
  · rw [h3, runNonBasic_eq]
    simp only [decodeFault, h1, h2] at h
    cases ht : operandFault a 1 s <;> simp_all
    simp [finish, passedOver, instrReads, Instr.length, h1, h2, State.publishAll, State.setSkip]

section
variable {i : Instr} {t a : Operand} {s : State}

/-- A basic instruction that executes, ended as its body ends. -/
theorem exec_basic {body : Resolved → Resolved → State → Except Fault (State × Bool)} (h1 : i.first = t)
    (h2 : i.second = some a) (h3 : exec i s = runBasic t a body s) (hr : decodeFault i s = none) (hs : s.skip = false) :
    exec i s = settle i.length (body (resolved t 1 s) (resolved a (1 + t.extra) s) (s.decoded i a)) := by
  obtain ⟨h4, h5⟩ := readable_basic h1 h2 (readable_iff.2 hr)
  rw [h3, runBasic_executes _ hs h4 h5, Instr.length, h1, h2, bodyState_eq_decoded h1 h2]

/-- A writer whose body writes `v` over the O of `earlyO` and then, if at all, `lateO`. -/
theorem ending_of_write {body : Resolved → Resolved → State → Except Fault (State × Bool)} (v : Word)
    (lateO : Option Word) (hr : decodeFault i s = none) (hs : s.skip = false) (hw : i.writesTarget = true)
    (h1 : i.first = t) (h2 : i.second = some a) (h3 : exec i s = runBasic t a body s)
    (hb : body (resolved t 1 s) (resolved a (1 + t.extra) s) (s.decoded i a) =
      match lateO with
      | none => writeOperand (resolved t 1 s) v (s.beforeWrite i a)
      | some o => writeThenO (resolved t 1 s) v o (s.beforeWrite i a))
    (ho : lateO.getD ((earlyO i (operandValue i.first 1 s) (sourceValue i s)).getD s.o) =
      implicitO i (operandValue i.first 1 s) (sourceValue i s) s.o) : Ending i s (exec i s) := by
  have e := exec_basic h1 h2 h3 hr hs
  subst h1
  rw [hb] at e
  cases hl : i.first.isLiteral with
  | false =>
    rw [show exec i s = .next (finish i.length (decide (i.first = .pc))
      ((written i.first 1 v s (s.beforeWrite i a)).optO lateO)) from ?_]
    · exact .wrote hr hs hw hl a h2 v lateO ho
    · cases lateO with
      | none => exact e.trans (settle_writeOperand hl _ _ _ _)
      | some o => exact e.trans (settle_writeThenO hl _ _ _ _ _)
  | true =>
    rw [show exec i s = .fault (.invalidTarget i.first.code (s.beforeWrite i a)) from ?_]
    · exact .literalTarget hr hs hw hl a h2
    · cases lateO with
      | none => exact e.trans (by rw [writeOperand_literal hl]; rfl)
      | some o => exact e.trans (by simp only [writeThenO_literal hl]; rfl)

/-- A conditional whose body is `skipUnless` of `holds`. -/
theorem ending_of_compare (holds : Bool) (hr : decodeFault i s = none) (hs : s.skip = false)
    (hw : i.writesTarget = false) (hj : i.isJsr = false) (h1 : i.first = t) (h2 : i.second = some a)
    {body : Resolved → Resolved → State → Except Fault (State × Bool)} (h3 : exec i s = runBasic t a body s)
    (hb : body (resolved t 1 s) (resolved a (1 + t.extra) s) (s.decoded i a) = skipUnless holds (s.decoded i a))
    (hc : holds = false ↔ conditionFails i (operandValue i.first 1 s) (sourceValue i s)) : Ending i s (exec i s) := by
  have e : exec i s = .next (finish i.length false ((s.decoded i a).setSkip !holds)) := by
    rw [exec_basic h1 h2 h3 hr hs, hb]
    have hk : (s.decoded i a).skip = false := hs
    cases holds
    · rfl
    · rw [show (s.decoded i a).setSkip (!true) = s.decoded i a by rw [State.setSkip, Bool.not_true, ← hk]]
      rfl
  rw [e]
  exact .compared hr hs hw hj a h2 (!holds) (by rw [← hc]; simp)

/-- A non-basic instruction without an effect. -/
theorem ending_of_noEffect (hr : decodeFault i s = none) (hs : s.skip = false) (hu : undefinedOpcode i = true)
    (h1 : i.first = a) (h2 : i.second = none) (h3 : exec i s = runNonBasic a noEffect s) : Ending i s (exec i s) := by
  suffices exec i s = .next (passedOver i s) from this ▸ .undefined hr hs hu
  rw [h3, runNonBasic_executes _ hs (readable_nonBasic h1 h2 (readable_iff.2 hr))]
  simp [noEffect, settle, finish, passedOver, instrReads, Instr.length, h1, h2, State.publishAll, hs]
end

/-- MUL's high half, as the table of 10_state.md R17 writes it. -/
theorem highHalf_mulProduct (x y : Word) : highHalf (mulProduct x y) = reduce (x.toNat * y.toNat / 65536) := by
  simp [highHalf, mulProduct, Nat.shiftRight_eq_div_pow]

/-- DIV's fraction, as the table of 10_state.md R17 writes it. -/
theorem divFraction_eq (x y : Word) :
    divFraction x y = if y.toNat = 0 then 0 else reduce (x.toNat * 65536 / y.toNat) := by
  by_cases h : y = 0
  · simp [divFraction, h]
  · have : ¬ y.toNat = 0 := fun e => h (BitVec.eq_of_toNat_eq (by simpa using e))
    simp only [divFraction, if_neg h, if_neg this, Nat.shiftLeft_eq]

/-- SHL's high half, as the table of 10_state.md R17 writes it. -/
theorem highHalf_shlValue (x y : Word) : highHalf (shlValue x y) = reduce (x.toNat * 2 ^ y.toNat / 65536) := by
  simp [highHalf, shlValue, Nat.shiftRight_eq_div_pow, Nat.shiftLeft_eq]

/-- SHR's O, as the table of 10_state.md R17 writes it. -/
theorem shrOut_eq (x y : Word) : shrOut x y = reduce (x.toNat * 65536 / 2 ^ y.toNat) := by
  simp [shrOut, Nat.shiftRight_eq_div_pow, Nat.shiftLeft_eq]

theorem ending_of_add {t a : Operand} {s : State} (hr : decodeFault (.add t a) s = none) (hs : s.skip = false) :
    Ending (.add t a) s (exec (.add t a) s) := by
  by_cases hc : 0xFFFF < (operandValue t 1 s).toNat + (operandValue a (1 + t.extra) s).toNat
  · have he : earlyO (.add t a) (operandValue t 1 s) (operandValue a (1 + t.extra) s) = some 1 := if_pos hc
    refine ending_of_write (reduce (addSum (operandValue t 1 s) (operandValue a (1 + t.extra) s) - 0x10000)) none hr hs
      rfl rfl rfl rfl ?_ (.trans ?_ (if_pos hc).symm)
    · simp only [State.beforeWrite, Instr.first, Instr.second, sourceValue, he]
      exact if_pos hc
    · simp [Instr.first, Instr.second, sourceValue, he]
  · have he : earlyO (.add t a) (operandValue t 1 s) (operandValue a (1 + t.extra) s) = none := if_neg hc
    refine ending_of_write (reduce (addSum (operandValue t 1 s) (operandValue a (1 + t.extra) s))) none hr hs
      rfl rfl rfl rfl ?_ (.trans ?_ (if_neg hc).symm)
    · simp only [State.beforeWrite, Instr.first, Instr.second, sourceValue, he]
      exact if_neg hc
    · simp [Instr.first, Instr.second, sourceValue, he]

theorem ending_of_sub {t a : Operand} {s : State} (hr : decodeFault (.sub t a) s = none) (hs : s.skip = false) :
    Ending (.sub t a) s (exec (.sub t a) s) := by
  have hd : subDiff (operandValue t 1 s) (operandValue a (1 + t.extra) s) < 0 ↔
      (operandValue t 1 s).toNat < (operandValue a (1 + t.extra) s).toNat := by
    simp only [subDiff]
    omega
  by_cases hc : (operandValue t 1 s).toNat < (operandValue a (1 + t.extra) s).toNat
  · have he : earlyO (.sub t a) (operandValue t 1 s) (operandValue a (1 + t.extra) s) = some 0xFFFF := if_pos hc
    refine ending_of_write (reduce (0x10000 + subDiff (operandValue t 1 s) (operandValue a (1 + t.extra) s)).toNat) none hr hs
      rfl rfl rfl rfl ?_ (.trans ?_ (if_pos hc).symm)
    · simp only [State.beforeWrite, Instr.first, Instr.second, sourceValue, he]
      exact if_pos (hd.2 hc)
    · simp [Instr.first, Instr.second, sourceValue, he]
  · have he : earlyO (.sub t a) (operandValue t 1 s) (operandValue a (1 + t.extra) s) = none := if_neg hc
    refine ending_of_write (reduce (subDiff (operandValue t 1 s) (operandValue a (1 + t.extra) s)).toNat) none hr hs
      rfl rfl rfl rfl ?_ (.trans ?_ (if_neg hc).symm)
    · simp only [State.beforeWrite, Instr.first, Instr.second, sourceValue, he]
      exact if_neg fun h => hc (hd.1 h)
    · simp [Instr.first, Instr.second, sourceValue, he]

/-- Everything `exec` can do. -/
theorem exec_ending (i : Instr) (s : State) : Ending i s (exec i s) := by
  cases hr : decodeFault i s with
  | some n => exact exec_of_decodeFault hr ▸ .outOfRange n hr
  | none =>
    by_cases hs : s.skip = true
    · exact ending_of_skip hs hr
    · have hs : s.skip = false := by simpa using hs
      cases i with
      | set | mod | and | bor | xor => exact ending_of_write _ none hr hs rfl rfl rfl rfl rfl rfl
      | mul => exact ending_of_write _ (some _) hr hs rfl rfl rfl rfl rfl (highHalf_mulProduct _ _)
      | div => exact ending_of_write _ (some _) hr hs rfl rfl rfl rfl rfl (divFraction_eq _ _)
      | shl => exact ending_of_write _ (some _) hr hs rfl rfl rfl rfl rfl (highHalf_shlValue _ _)
      | shr => exact ending_of_write _ (some _) hr hs rfl rfl rfl rfl rfl (shrOut_eq _ _)
      | add => exact ending_of_add hr hs
      | sub => exact ending_of_sub hr hs
      | ife t a =>
        exact ending_of_compare (condEqual (operandValue t 1 s) (operandValue a (1 + t.extra) s)) hr hs rfl rfl rfl rfl
          rfl rfl (by simp [condEqual, conditionFails, sourceValue, Instr.first, Instr.second])
      | ifn t a =>
        exact ending_of_compare (condDiffer (operandValue t 1 s) (operandValue a (1 + t.extra) s)) hr hs rfl rfl rfl
          rfl rfl rfl (by simp [condDiffer, conditionFails, sourceValue, Instr.first, Instr.second])
      | ifg t a =>
        exact ending_of_compare (condGreater (operandValue t 1 s) (operandValue a (1 + t.extra) s)) hr hs rfl rfl rfl
          rfl rfl rfl (by simp [condGreater, conditionFails, sourceValue, Instr.first, Instr.second])
      | ifb t a =>
        exact ending_of_compare (condCommonBit (operandValue t 1 s) (operandValue a (1 + t.extra) s)) hr hs rfl rfl rfl
          rfl rfl rfl (by simp [condCommonBit, conditionFails, sourceValue, Instr.first, Instr.second])
      | jsr a =>
        have hf := readable_nonBasic (a := a) rfl rfl (readable_iff.2 hr)
        rw [show exec (.jsr a) s = _ from runNonBasic_executes callBody hs hf, callBody_eq]
        have := Ending.called hr hs a rfl
        simpa [settle, instrReads, Instr.first, Instr.second, Instr.length] using this
      | undef00 | undef02to03 | undef04to07 | undef08to0f | undef10to1f | undef20to3f =>
        exact ending_of_noEffect hr hs rfl rfl rfl rfl

/-- The same, for a proof that has the outcome as a hypothesis. -/
theorem ending_of_exec {i : Instr} {s : State} {r : Host.Outcome State Fault Refusal} (h : exec i s = r) :
    Ending i s r := h ▸ exec_ending i s

end Sys2Proof.Machine
end

