-- ==== Sys2Proof/Laws/HostPort.lean ====
section
/-! SUPPORT. What the host's steps do, one step at a time, and that no step reads or writes the run schedule
(50_interfaces.md R167, R168, R171). -/

namespace Sys2Proof.Machine

@[simp] theorem runSteps_zero (s : State) : runSteps 0 s = (s, .done) := rfl

/-- A completed step is followed by the rest of the run. -/
theorem runSteps_of_next {s s1 : State} (h : step s = .next s1) (n : Nat) : runSteps (n + 1) s = runSteps n s1 := by
  rw [runSteps, h]

/-- A fault ends the run at once, however many steps were left (R171). -/
theorem runSteps_of_fault {s : State} {f : Fault} (h : step s = .fault f) (n : Nat) :
    runSteps (n + 1) s = (f.left.setRunning false, .faulted f) := by
  rw [runSteps, h]

/-- No instruction writes the run schedule. -/
theorem exec_running {i : Instr} {s s' : State} (h : exec i s = .next s') : s'.running = s.running := by
  cases ending_of_exec h <;> simp [passedOver, State.beforeWrite, State.decoded]

/-- No step writes the run schedule. -/
theorem step_running {s s' : State} (h : step s = .next s') : s'.running = s.running := by
  simp only [step, fetch_eq] at h
  exact (exec_running h).trans s.fetched_running

end Sys2Proof.Machine
end

