-- ==== Sys2Proof/Laws/PerInstr.lean ====
section
/-! SUPPORT. Facts of every instruction as syntax, one lemma per constructor. -/

namespace Sys2Proof.Laws.EncodedLength

/-- The length an instruction claims is what its encoded word's operand fields say (30_encoding.md R50): one word, one for
the source field's next word, and one for the target field's when the opcode field is not 0. -/
def Statement (i : Instr) : Prop :=
  i.length =
    1 + (if opcodeField (encode i) = 0 then 0 else (Operand.ofCode (targetField (encode i))).extra) +
      (Operand.ofCode (sourceField (encode i))).extra

theorem basic (op : BasicOp) (t a : Operand) : Statement (Instr.ofBasic op t a) := by
  have h : op.number ≠ 0#4 := by cases op <;> decide
  simp [Statement, Instr.length, basicWord, h]

theorem nonBasic (nb : BitVec 6) (a : Operand) {i : Instr} (h1 : i.first = a) (h2 : i.second = none)
    (h3 : encode i = nonBasicWord nb a) : Statement i := by
  simp [Statement, Instr.length, h1, h2, h3, nonBasicWord]

theorem set (t a : Operand) : Statement (.set t a) := basic .set t a
theorem add (t a : Operand) : Statement (.add t a) := basic .add t a
theorem sub (t a : Operand) : Statement (.sub t a) := basic .sub t a
theorem mul (t a : Operand) : Statement (.mul t a) := basic .mul t a
theorem div (t a : Operand) : Statement (.div t a) := basic .div t a
theorem mod (t a : Operand) : Statement (.mod t a) := basic .mod t a
theorem shl (t a : Operand) : Statement (.shl t a) := basic .shl t a
theorem shr (t a : Operand) : Statement (.shr t a) := basic .shr t a
theorem and (t a : Operand) : Statement (.and t a) := basic .and t a
theorem bor (t a : Operand) : Statement (.bor t a) := basic .bor t a
theorem xor (t a : Operand) : Statement (.xor t a) := basic .xor t a
theorem ife (t a : Operand) : Statement (.ife t a) := basic .ife t a
theorem ifn (t a : Operand) : Statement (.ifn t a) := basic .ifn t a
theorem ifg (t a : Operand) : Statement (.ifg t a) := basic .ifg t a
theorem ifb (t a : Operand) : Statement (.ifb t a) := basic .ifb t a
theorem jsr (a : Operand) : Statement (.jsr a) := nonBasic jsrNumber a rfl rfl rfl
theorem undef00 (a : Operand) : Statement (.undef00 a) := nonBasic 0x00 a rfl rfl rfl
theorem undef02to03 (nb : BitVec 6) (a : Operand) : Statement (.undef02to03 nb a) := nonBasic nb a rfl rfl rfl
theorem undef04to07 (nb : BitVec 6) (a : Operand) : Statement (.undef04to07 nb a) := nonBasic nb a rfl rfl rfl
theorem undef08to0f (nb : BitVec 6) (a : Operand) : Statement (.undef08to0f nb a) := nonBasic nb a rfl rfl rfl
theorem undef10to1f (nb : BitVec 6) (a : Operand) : Statement (.undef10to1f nb a) := nonBasic nb a rfl rfl rfl
theorem undef20to3f (nb : BitVec 6) (a : Operand) : Statement (.undef20to3f nb a) := nonBasic nb a rfl rfl rfl

end Sys2Proof.Laws.EncodedLength
end

