-- ==== Sys2Proof/Tests/Slice0.lean ====
section
/-! SUPPORT. The model's own tests: words written out from the spec's encodings, the WellFormed smoke, single steps whose
expected values are the spec's own vectors (95_test_vectors.md), and one witness for the hypotheses of each statement. -/

namespace Sys2Proof.Tests

open Sys2Proof.Machine

/-! ### Decoding: each word is `source_target_opcode` (30_encoding.md R51, R52), its fields written from the tables R54, R56,
R57 and spec/opcode_table.json -/

theorem test_decode_set : decode 0b100101_000000_0001 = .set (.reg .a) (.small 5) := by decide
theorem test_decode_add : decode 0b011000_011001_0010 = .add .peek .pop := by decide
theorem test_decode_sub : decode 0b100010_011100_0011 = .sub .pc (.small 2) := by decide
theorem test_decode_mul : decode 0b011111_011101_0100 = .mul .o .lit := by decide
theorem test_decode_div : decode 0b000111_001000_0101 = .div (.ind .a) (.reg .j) := by decide
theorem test_decode_mod : decode 0b001111_010001_0110 = .mod (.idx .b) (.ind .j) := by decide
theorem test_decode_shl : decode 0b100100_000011_0111 = .shl (.reg .x) (.small 4) := by decide
theorem test_decode_shr : decode 0b111111_000101_1000 = .shr (.reg .z) (.small 31) := by decide
theorem test_decode_and : decode 0b011110_011011_1001 = .and .sp .abs := by decide
theorem test_decode_bor : decode 0b010111_000100_1010 = .bor (.reg .y) (.idx .j) := by decide
theorem test_decode_xor : decode 0b011010_000110_1011 = .xor (.reg .i) .push := by decide
theorem test_decode_ife : decode 0b000000_100101_1100 = .ife (.small 5) (.reg .a) := by decide
theorem test_decode_ifn : decode 0b010000_000001_1101 = .ifn (.reg .b) (.idx .a) := by decide
theorem test_decode_ifg : decode 0b001010_000010_1110 = .ifg (.reg .c) (.ind .c) := by decide
theorem test_decode_ifb : decode 0b011101_011111_1111 = .ifb .lit .o := by decide
theorem test_decode_jsr : decode 0b011111_000001_0000 = .jsr .lit := by decide
theorem test_decode_undef00 : decode 0b000000_000000_0000 = .undef00 (.reg .a) := by decide
theorem test_decode_undef02to03 : decode 0b011111_000010_0000 = .undef02to03 0x02 .lit := by decide
theorem test_decode_undef04to07 : decode 0b011000_000111_0000 = .undef04to07 0x07 .pop := by decide
theorem test_decode_undef08to0f : decode 0b011100_001000_0000 = .undef08to0f 0x08 .pc := by decide
theorem test_decode_undef10to1f : decode 0b100000_011111_0000 = .undef10to1f 0x1f (.small 0) := by decide
theorem test_decode_undef20to3f : decode 0b011010_111111_0000 = .undef20to3f 0x3f .push := by decide

/-! ### WellFormed refuses an undefined row's opcode outside the row (one term below and one above each range) -/

theorem test_illFormed_undef02to03 :
    (Instr.undef02to03 0x01 .pop).wellFormed = false ∧ (Instr.undef02to03 0x04 .pop).wellFormed = false := by decide
theorem test_illFormed_undef04to07 :
    (Instr.undef04to07 0x03 .pop).wellFormed = false ∧ (Instr.undef04to07 0x08 .pop).wellFormed = false := by decide
theorem test_illFormed_undef08to0f :
    (Instr.undef08to0f 0x07 .pop).wellFormed = false ∧ (Instr.undef08to0f 0x10 .pop).wellFormed = false := by decide
theorem test_illFormed_undef10to1f :
    (Instr.undef10to1f 0x0f .pop).wellFormed = false ∧ (Instr.undef10to1f 0x20 .pop).wellFormed = false := by decide
theorem test_illFormed_undef20to3f : (Instr.undef20to3f 0x1f .pop).wellFormed = false := by decide

/-! ### Single steps. Each expected value is a vector of 95_test_vectors.md, named in the theorem's comment. -/

/-- Words stored at consecutive addresses. -/
def place : Nat → List Word → State → State
  | _, [], s => s
  | a, w :: ws, s => place (a + 1) ws (s.poke a w)

/-- The reset state with words at `a`, and PC there. -/
def image (a : Word) (ws : List Word) : State := (place a.toNat ws State.reset).setPc a

/-- One step completes, and the state it leaves passes a check. -/
def after (s : State) (check : State → Bool) : Bool :=
  match step s with
  | .next t => check t
  | .fault _ => false
  | .refused _ => false

/-- One step faults, and the fault passes a check. -/
def faults (s : State) (check : Fault → Bool) : Bool :=
  match step s with
  | .next _ => false
  | .fault f => check f
  | .refused _ => false

-- V7: SET [0x1000], 0x20
theorem test_set_memory : after (image 0 [0x7de1, 0x1000, 0x0020]) (fun t =>
    t.mem.load 0x1000 == 0x20 && t.pc == 3 &&
    t.trace == [.rd 0 0x7de1, .rd 1 0x1000, .rd 0x1000 0, .rd 2 0x20, .wr 0x1000 0x20]) = true := by decide
-- V50: SET PC, POP
theorem test_set_pc_pop : after (((image 0x19 [0x61c1]).setSp 0xffff).poke 0xffff 0x16) (fun t =>
    t.pc == 0x16 && t.sp == 0) = true := by decide
-- V63, V68: ADD A, 1 leaves a stale O, ADD O, 1 with a carry writes O last
theorem test_add_o : after (((image 0 [0x8402]).setReg .a 1).setO 0xffff) (fun t =>
    t.regs.a == 2 && t.o == 0xffff) = true ∧ after ((image 0 [0x85d2]).setO 0xffff) (fun t => t.o == 0) = true := by decide
-- V70: SUB B, A
theorem test_sub_borrows : after (((image 0 [0x0013]).setReg .a 5).setReg .b 3) (fun t =>
    t.regs.b == 0xfffe && t.o == 0xffff) = true := by decide
-- V47: SUB PC, 2
theorem test_sub_pc : after (image 0x10 [0x89c3]) (fun t => t.pc == 0x0e && t.o == 0) = true := by decide
-- V77: MUL A, B
theorem test_mul_widest : after (((image 0 [0x0404]).setReg .a 0xffff).setReg .b 0xffff) (fun t =>
    t.regs.a == 1 && t.o == 0xfffe) = true := by decide
-- V80: MUL O, 0x100
theorem test_mul_target_o : after ((image 0 [0x7dd4, 0x0100]).setO 0x1234) (fun t => t.o == 0x12) = true := by decide
-- V83: DIV A, 3
theorem test_div_fraction : after ((image 0 [0x8c05]).setReg .a 1) (fun t =>
    t.regs.a == 0 && t.o == 0x5555) = true := by decide
-- V81: DIV A, 0
theorem test_div_by_zero : after (((image 0 [0x8005]).setReg .a 0x1234).setO 9) (fun t =>
    t.regs.a == 0 && t.o == 0) = true := by decide
-- V90: MOD A, 3
theorem test_mod_keeps_o : after (((image 0 [0x8c06]).setReg .a 7).setO 9) (fun t =>
    t.regs.a == 1 && t.o == 9) = true := by decide
-- V91: MOD A, 0
theorem test_mod_by_zero : after (((image 0 [0x8006]).setReg .a 7).setO 9) (fun t =>
    t.regs.a == 0 && t.o == 9) = true := by decide
-- V105: SHL A, 17
theorem test_shl_past_sixteen : after ((image 0 [0xc407]).setReg .a 0xabcd) (fun t =>
    t.regs.a == 0 && t.o == 0x579a) = true := by decide
-- V107: SHL A, 32
theorem test_shl_thirty_two : after (((image 0 [0x7c07, 0x20]).setReg .a 0xabcd).setO 9) (fun t =>
    t.regs.a == 0 && t.o == 0) = true := by decide
-- V110: SHR A, 1
theorem test_shr_logical : after ((image 0 [0x8408]).setReg .a 0x8001) (fun t =>
    t.regs.a == 0x4000 && t.o == 0x8000) = true := by decide
-- V115: SHR A, 20
theorem test_shr_past_sixteen : after ((image 0 [0xd008]).setReg .a 0xabcd) (fun t =>
    t.regs.a == 0 && t.o == 0x0abc) = true := by decide
-- V118: AND A, 0x0f
theorem test_and_keeps_o : after (((image 0 [0xbc09]).setReg .a 0x1234).setO 9) (fun t =>
    t.regs.a == 4 && t.o == 9) = true := by decide
-- V121: BOR A, 0x1f
theorem test_bor_keeps_o : after (((image 0 [0xfc0a]).setReg .a 0x1200).setO 9) (fun t =>
    t.regs.a == 0x121f && t.o == 9) = true := by decide
-- V123: XOR A, 0x0f
theorem test_xor_keeps_o : after (((image 0 [0xbc0b]).setReg .a 0x00ff).setO 9) (fun t =>
    t.regs.a == 0x00f0 && t.o == 9) = true := by decide
-- V150: IFE POP, 1 is false and still pops
theorem test_ife_false_pops : after (((image 0 [0x858c]).setSp 0x8000).poke 0x8000 2) (fun t =>
    t.skip && t.sp == 0x8001 && t.pc == 1) = true := by decide
-- V141: IFE 5, A with a literal target
theorem test_ife_literal_target : after ((image 0 [0x025c]).setReg .a 5) (fun t => !t.skip && t.pc == 1) = true := by
  decide
-- V132: IFN A, 0x10
theorem test_ifn_equal_skips : after ((image 0 [0xc00d]).setReg .a 0x10) (fun t => t.skip) = true := by decide
-- V136: IFG A, B is unsigned
theorem test_ifg_unsigned : after (((image 0 [0x040e]).setReg .a 0x8000).setReg .b 0x7fff) (fun t => !t.skip) = true := by
  decide
-- V135: IFG A, 5 is strict
theorem test_ifg_strict : after ((image 0 [0x940e]).setReg .a 5) (fun t => t.skip) = true := by decide
-- V139: IFB A, 8
theorem test_ifb_no_common_bit : after ((image 0 [0xa00f]).setReg .a 6) (fun t => t.skip) = true := by decide
-- V163: JSR POP
theorem test_jsr_pop : after ((((image 0x10 [0x6010]).setSp 0x8000).poke 0x7fff 0x222).poke 0x8000 0x333) (fun t =>
    t.sp == 0x8000 && t.pc == 0x333 && t.mem.load 0x8000 == 0x11) = true := by decide
-- V169: JSR A at 0xffff, whose return address wraps to 0
theorem test_jsr_wraps : after (((image 0xffff [0x0010]).setReg .a 0x300).setSp 0x8000) (fun t =>
    t.pc == 0x300 && t.mem.load 0x7fff == 0 && t.trace == [.rd 0xffff 0x0010, .wr 0x7fff 0]) = true := by decide
-- V171, V173: undefined 0x00, the second with POP
theorem test_undef00 : after ((image 0 [0x6000]).setSp 0x8000) (fun t => t.sp == 0x8000 && t.pc == 1) = true := by decide
-- V172: undefined 0x02 with a next word
theorem test_undef02to03 : after (image 0 [0x7c20, 0x1234]) (fun t =>
    t.pc == 2 && t.trace == [.rd 0 0x7c20, .rd 1 0x1234]) = true := by decide
-- V174: undefined 0x3f with PUSH
theorem test_undef20to3f : after ((image 0 [0x6bf0]).setSp 0x8000) (fun t =>
    t.sp == 0x8000 && t.trace == [.rd 0 0x6bf0, .rd 0x7fff 0]) = true := by decide
-- R151: undefined 0x04, 0x0f and 0x1f with operand A only advance PC
theorem test_undef_middle_rows :
    after (image 0 [0x0040]) (fun t => t.pc == 1 && t.trace == [.rd 0 0x0040]) = true ∧
    after (image 0 [0x00f0]) (fun t => t.pc == 1 && t.trace == [.rd 0 0x00f0]) = true ∧
    after (image 0 [0x01f0]) (fun t => t.pc == 1 && t.trace == [.rd 0 0x01f0]) = true := by decide
-- V182: ADD 0xffff, 1 carries, then faults
theorem test_add_literal_target : faults (image 0 [0x85f2, 0xffff]) (fun f =>
    match f with
    | .invalidTarget c l => c == 0x1f && l.o == 1 && l.pc == 0 && l.steps == 0
    | .outOfRange _ _ => false
    | .valueTooLarge _ _ => false) = true := by decide
-- V151: a skipped instruction whose decode faults keeps the skip flag
theorem test_skipped_decode_faults : faults (((image 0 [0x4401, 0xffff]).setReg .b 1).setSkip true) (fun f =>
    match f with
    | .outOfRange n l => n == 0x10000 && l.skip && l.pc == 0
    | .invalidTarget _ _ => false
    | .valueTooLarge _ _ => false) = true := by decide

/-- The instruction the host places is the one the next step runs: SET A, 5 at reset. -/
theorem test_withFetchWord : after (State.reset.withFetchWord 16 0x9401) (fun t => t.regs.a == 5 && t.pc == 1) = true := by
  decide

/-- Storing 0 unlists the address, so equal memories are equal data. -/
theorem test_store_zero_unlists : Memory.store (Memory.store [] 7 1) 7 0 = [] := by decide

/-! ### Witnesses: each meets all the hypotheses of the statement it is named after -/

/-- A writer's hypothesis at reset memory: target memory, source next word. -/
theorem test_witness_writers :
    let s := (image 0xfffc [0, 0x1000, 0xffff]).setReg .b 0xefff
    runs (.set (.idx .b) .lit) s = true ∧ runs (.add (.idx .b) .lit) s = true ∧ runs (.sub .push .pop) s = true ∧
    runs (.mul .o (.small 31)) s = true ∧ runs (.div .pc .lit) s = true ∧ runs (.div .sp (.small 0)) s = true ∧
    runs (.mod .abs .peek) s = true := by decide

/-- SHL and SHR at the boundary counts 0, 15, 16, 31, 32 and 0xffff. -/
theorem test_witness_shifts :
    let s := image 0 [0, 0x20]
    let t := image 0 [0, 0xffff]
    (runs (.shl (.reg .a) (.small 0)) s = true ∧ runs (.shl (.reg .a) (.small 15)) s = true ∧
      runs (.shl (.reg .a) (.small 16)) s = true ∧ runs (.shl (.reg .a) (.small 31)) s = true ∧
      runs (.shl (.reg .a) .lit) s = true ∧ operandValue .lit 1 s = 32) ∧
    (runs (.shr (.reg .a) (.small 0)) s = true ∧ runs (.shr (.reg .a) (.small 15)) s = true ∧
      runs (.shr (.reg .a) (.small 16)) s = true ∧ runs (.shr (.reg .a) (.small 31)) s = true ∧
      runs (.shr (.reg .a) .lit) s = true ∧ runs (.shr (.reg .a) .lit) t = true ∧ operandValue .lit 1 t = 0xffff) := by
  decide

theorem test_witness_BitwiseInstructionsCombineBits :
    State.reset.skip = false ∧ (Operand.abs).isLiteral = false ∧ readable (.and .abs .pop) State.reset = true ∧
    readable (.bor .abs .pop) State.reset = true ∧ readable (.xor .abs .pop) State.reset = true := by decide

/-- Readable operands, a literal target among them, and an operand out of range. -/
theorem test_witness_ConditionalsSkipWhenFalse :
    let s := (image 0 [0, 0xffff]).setReg .b 1
    s.skip = false ∧ readable (.ife (.small 5) (.ind .b)) s = true ∧ readable (.ife (.idx .b) (.reg .a)) s = false := by
  decide

theorem test_witness_PendingSkipPassesOverTheInstruction :
    let s := ((image 0 [0, 0xffff]).setReg .b 1).setSkip true
    s.skip = true ∧ readable (.set (.small 5) .pop) s = true ∧ readable (.set (.idx .b) (.reg .a)) s = false := by decide

/-- A false IFE sets the flag; a pending skip is cleared; a faulting step. -/
theorem test_witness_OnlyFalseConditionalsSetSkip :
    after (image 0 [0x980c]) (fun t => t.skip) = true ∧ after ((image 0 [0x980c]).setSkip true) (fun t => !t.skip) = true ∧
    faults (image 0 [0x0251]) (fun f => !f.left.skip) = true := by decide

theorem test_witness_JsrPushesTheReturnAddressAndJumps :
    State.reset.skip = false ∧ readable (.jsr .push) State.reset = true ∧ readable (.jsr .lit) State.reset = true := by
  decide

theorem test_witness_UndefinedOpcodesAreNoOps :
    undefinedOpcode (.undef00 .pop) = true ∧ undefinedOpcode (.undef02to03 2 .lit) = true ∧
    undefinedOpcode (.undef04to07 4 .push) = true ∧ undefinedOpcode (.undef08to0f 8 .abs) = true ∧
    undefinedOpcode (.undef10to1f 0x10 .pc) = true ∧ undefinedOpcode (.undef20to3f 0x3f .push) = true ∧
    State.reset.skip = false ∧ readable (.undef00 .pop) State.reset = true ∧
    readable (.undef20to3f 0x3f .push) State.reset = true := by decide

/-- A call and the state it leaves: no skip, the same SP, the same word there. -/
theorem test_witness_ReturnResumesAfterTheCall :
    State.reset.skip = false ∧
    ∃ s1 : State, exec (.jsr (.small 5)) State.reset = .next s1 ∧ s1.skip = false ∧ s1.sp = 0xffff := by
  refine ⟨rfl, _, rfl, ?_⟩
  decide

/-- A step that writes PC and one that does not. -/
theorem test_witness_PcAdvancesByTheLengthUnlessWritten :
    after (image 0xffff [0x0001]) (fun t => t.pc == 0) = true ∧ writesPc (image 0xffff [0x0001]).current
      (image 0xffff [0x0001]) = false := by decide

/-- Completed steps with no write, a memory write, a call's write and a skip. -/
theorem test_witness_completed_steps :
    after (image 0 [0x9401]) (fun t => t.trace.length == 1) = true ∧
    after (image 0 [0x7de1, 0x1000, 0x20]) (fun t => t.trace.length == 5) = true ∧
    after (image 0 [0x7c10, 0x18]) (fun t => t.trace.length == 3) = true ∧
    after ((image 0 [0x7de1, 0x1000, 0x20]).setSkip true) (fun t => t.trace.length == 4) = true := by decide

/-- A completed step and a faulting one. -/
theorem test_witness_CompletedStepsAreCountedAndNotified :
    after State.reset (fun t => t.steps == 1) = true ∧ faults (image 0 [0x0251]) (fun f => f.left.steps == 0) = true := by
  decide

/-- A completed instruction of which O is no operand, and a location that is O. -/
theorem test_witness_OnlyTheListedInstructionsWriteO :
    (Instr.mul (.reg .a) (.reg .b)).first ≠ .o ∧ (Instr.mul (.reg .a) (.reg .b)).second ≠ some .o ∧
    (∃ t : State, exec (.mul (.reg .a) (.reg .b)) State.reset = .next t) ∧
    (resolved .o 1 State.reset).loc = .o := by
  refine ⟨by decide, by decide, ⟨_, rfl⟩, rfl⟩

theorem test_witness_InvalidTargetExactlyForExecutedLiteralTargets :
    (Instr.set .lit (.reg .a)).writesTarget = true ∧ (Instr.set .lit (.reg .a)).first.code = 0x1f ∧
    State.reset.skip = false ∧ readable (.set .lit (.reg .a)) State.reset = true := by decide

/-- R186's places: the target's next word, its indexed word, the source's next word, its indexed word, a literal target
(the last four from V42, V190, V191, V180), and a host write with both defects. -/
theorem test_witness_StepRaisesTheFirstFault :
    let s1 := image 0xffff [0x01e1]
    let s2 := ((image 0 [0x4911, 0xffff, 0xffff]).setReg .b 1).setReg .c 1
    let s3 := image 0xfffe [0x7de1, 0x1000]
    let s4 := ((image 0 [0x4911, 0xfffe, 0xffff]).setReg .b 1).setReg .c 1
    operandFault s1.current.first 1 s1 = some 0x10000 ∧ operandFault s2.current.first 1 s2 = some 0x10000 ∧
    operandFault s3.current.first 1 s3 = none ∧ operandFault .lit 2 s3 = some 0x10000 ∧
    operandFault s4.current.first 1 s4 = none ∧ operandFault (.idx .c) 2 s4 = some 0x10000 ∧
    decodeFault (image 0 [0x0251]).current (image 0 [0x0251]) = none ∧
    writesLiteral (image 0 [0x0251]).current = true := by decide

/-- A decode fault and an InvalidTarget, with what they leave (V5, V188). -/
theorem test_witness_aborted_steps :
    faults ((image 0 [0x4401, 0xffff]).setReg .b 1) (fun f => f.left.trace == [.rd 0 0x4401, .rd 1 0xffff]) = true ∧
    faults (((image 0 [0x6251]).setSp 0x8000).poke 0x8000 7) (fun f => f.left.sp == 0x8001) = true := by decide

/-- The bounds of MemRead and MemWrite. -/
theorem test_witness_memory_bounds :
    memRead 0x10000 State.reset = .error (.outOfRange 0x10000 State.reset) ∧
    (∃ t : State, memRead 0xffff State.reset = .ok (0, t)) ∧
    memWrite 0x10000 0x10000 State.reset = .error (.valueTooLarge 0x10000 State.reset) ∧
    memWrite 0x10000 0xffff State.reset = .error (.outOfRange 0x10000 State.reset) ∧
    ∃ t : State, memWrite 0xffff 0xffff State.reset = .ok t ∧ t.mem = [(0xffff, 0xffff)] := by
  refine ⟨by decide, ⟨_, rfl⟩, by decide, by decide, ⟨_, rfl, by decide⟩⟩

/-- Two ways to the same canonical memory. -/
theorem test_witness_CanonicalMemoriesThatReadAlikeAreEqual :
    (Memory.store (Memory.store [] 0xffff 2) 0 1).wf = true ∧ (Memory.store (Memory.store [] 0 1) 0xffff 2).wf = true ∧
    Memory.store (Memory.store [] 0xffff 2) 0 1 = Memory.store (Memory.store [] 0 1) 0xffff 2 := by decide

/-- The last address an index and a next word reach, and the first they do not. -/
theorem test_witness_operand_bounds :
    let s := (image 0 [0, 0xfffe]).setReg .b 1
    let t := (image 0 [0, 0xffff]).setReg .b 1
    operandFault (.idx .b) 1 s = none ∧ operandFault (.idx .b) 1 t = some 0x10000 ∧
    operandFault .lit 1 (image 0xfffe [0]) = none ∧ operandFault .lit 1 (image 0xffff [0]) = some 0x10000 := by decide

/-- Each location a write can have. -/
theorem test_witness_WriteOperandWritesItsLocation :
    let s := State.reset
    (resolved (.reg .j) 1 s).loc = .reg .j ∧ (resolved .sp 1 s).loc = .sp ∧ (resolved .o 1 s).loc = .o ∧
    (resolved .pc 1 s).loc = .pc ∧ (resolved .push 1 s).loc = .mem 0xffff ∧ (resolved (.small 5) 1 s).loc = .none := by
  decide

theorem test_witness_DecodeOfEncodeIsTheInstruction :
    (Instr.undef02to03 0x02 .pop).wellFormed = true ∧ (Instr.undef02to03 0x03 .pop).wellFormed = true ∧
    (Instr.undef20to3f 0x3f (.small 31)).wellFormed = true ∧ (Instr.set .lit .lit).wellFormed = true := by decide

/-- The invariants at reset, and a step from there. -/
theorem test_witness_invariants :
    State.reset.inv ∧ State.reset.sequential ∧ after State.reset (fun t => t.mem.wf && t.notified == t.steps) = true := by
  refine ⟨⟨rfl, rfl⟩, ⟨fun before after a v h => ?_, fun _ => rfl⟩, by decide⟩
  simp [State.reset] at h

theorem test_witness_ProgramsCannotSeeTheHostsState :
    State.reset.sameProgramView ((State.reset.publish (.rd 7 7)).setRunning true) := ⟨rfl, rfl, rfl, rfl, rfl, rfl⟩

theorem test_witness_HostCommands :
    Command.run ≠ .memReset ∧ Command.write 0xffff 1 ≠ .step ∧ (∀ n : Nat, Command.load [1] ≠ .batch n) ∧
    [(1 : Word)].length ≤ 0x10000 :=
  ⟨nofun, nofun, nofun, by decide⟩

/-- An idle machine, a running one whose one step is within any batch, and a running one that faults. -/
theorem test_witness_BatchIsTheRepeatedStep :
    State.reset.running = false ∧ (State.reset.setRunning true).running = true ∧ 1 ≤ Config.batchSteps ∧
    (∃ t : State, Sys2Proof.core.run 1 (State.reset.setRunning true) = .next t) ∧
    ∃ f : Fault, (control (.batch 1) ((image 0 [0x0251]).setRunning true)).2 = .faulted f := by
  have one : min 1 Config.batchSteps = 1 := Nat.min_eq_left (Nat.le_add_left 1 _)
  refine ⟨rfl, rfl, Nat.le_add_left 1 _, ⟨_, rfl⟩, ?_⟩
  simp only [Sys2Proof.Machine.control, one]
  exact ⟨_, rfl⟩

/-- A running machine whose second step faults (SET A, 5 then SET 5, A: V60, V180): the step before it completes, the fault
comes at the last place of a batch of two where a batch can hold two steps, and such a run reports it. A batch of one meets
the hypotheses at its first step whatever BATCH_STEPS is. -/
theorem test_witness_batch_faults_at_a_later_step :
    let s := (image 0 [0x9401, 0x0251]).setRunning true
    s.running = true ∧ (2 ≤ Config.batchSteps → 1 < min 2 Config.batchSteps) ∧
    (∃ m : State, Sys2Proof.core.run 1 s = .next m ∧ faults m (fun f => f.left.steps == 1) = true) ∧
    (runSteps 2 s).1.running = false ∧ (runSteps 2 s).1.regs.a = 5 ∧
    0 < min 1 Config.batchSteps ∧ Sys2Proof.core.run 0 ((image 0 [0x0251]).setRunning true) =
      .next ((image 0 [0x0251]).setRunning true) := by
  refine ⟨by decide, fun h => by omega, ⟨_, rfl, by decide⟩, by decide, by decide, ?_, rfl⟩
  exact Nat.lt_min.2 ⟨Nat.one_pos, Nat.succ_pos _⟩

/-- A step that faults on a running machine, with the schedule ended, and a step that completes (V180, V60). -/
theorem test_witness_FaultIsReportedAndEndsTheRun :
    faults ((image 0 [0x0251]).setRunning true) (fun f => f.left.running) = true ∧
    ((image 0 [0x0251]).setRunning true).running = true ∧
    (stepCommand ((image 0 [0x0251]).setRunning true)).1.running = false ∧
    after (image 0 [0x9401]) (fun t => t.regs.a == 5) = true := by decide

/-- A running machine, and both sides of the equivalence: stop, a faulting step, a step that completes. -/
theorem test_witness_OnlyStopOrAFaultEndsARun :
    (State.reset.setRunning true).running = true ∧ (control .stop (State.reset.setRunning true)).1.running = false ∧
    (control .step ((image 0 [0x0251]).setRunning true)).1.running = false ∧
    (control .step (State.reset.setRunning true)).1.running = true := by decide

/-- The two self-jumps of the spec: `SET PC, 0x1a` at 0x1a (the sample program's crash loop, with a next word) and
`SET PC, PC` (V44). -/
theorem test_witness_SelfJumpKeepsSteppingAndChangesOnlyTheCountsAndTrace :
    (image 0x1a [0x7dc1, 0x001a]).selfJump = true ∧ (image 0x10 [0x71c1]).selfJump = true ∧
    ((image 0x1a [0x7dc1, 0x001a]).setSkip true).selfJump = false := by decide

end Sys2Proof.Tests
end

/-! ### Proofs: memory and the observe port (20_memory.md R31 to R34) -/

section
namespace Sys2Proof.Machine

/-- A step is the meaning of the instruction at PC on the fetched state (40_step_and_operands.md R70, R71). -/
theorem step_eq_exec_current (s : State) : step s = exec s.current s.fetched := by
  rw [step, fetch_eq]
  rfl

/-- The host's read of an address below capacity is `MemRead`'s (50_interfaces.md R166). -/
theorem control_read_ok {a : Nat} (ha : a < Config.capacity) (s : State) :
    control (.read a) s = (s.publish (.rd (reduce a) (s.mem.load a)), .value (s.mem.load a)) := by
  simp only [control, memRead_ok ha]

/-- The host's read above capacity is told the fault and leaves the state as it was. -/
theorem control_read_error {a : Nat} (ha : Config.capacity ≤ a) (s : State) :
    control (.read a) s = (s, .faulted (.outOfRange a s)) := by
  simp only [control, memRead_error ha, Fault.outOfRange_left]

theorem memWrite_valueTooLarge {v : Nat} (hv : 0xFFFF < v) (a : Nat) (s : State) :
    memWrite a v s = .error (.valueTooLarge v s) := by
  simp [memWrite, hv, raise]

theorem memWrite_outOfRange {a v : Nat} (hv : v ≤ 0xFFFF) (ha : Config.capacity ≤ a) (s : State) :
    memWrite a v s = .error (.outOfRange a s) := by
  simp [memWrite, Nat.not_lt.2 hv, ha, raise]

/-- A completed write changes its own word and no other (20_memory.md R34). -/
theorem memWrite_load {a v : Nat} {s t : State} (h : memWrite a v s = .ok t) (b : Nat) :
    t.mem.load b = if b = a then reduce v else s.mem.load b := by
  obtain ⟨-, hw⟩ | ⟨-, -, hw⟩ | ⟨-, -, hw⟩ := memWrite_cases a v s
  · cases hw.symm.trans h
  · cases hw.symm.trans h
  · cases hw.symm.trans h
    exact Memory.load_store s.mem a b (reduce v)

/-- The host's write is `MemWrite`, its fault told with the state the fault carries (50_interfaces.md R166). -/
theorem control_write (a v : Nat) (s : State) : control (.write a v) s = hostDone (memWrite a v s) := rfl

/-- Of the seven endings the two that fault are OutOfRange and InvalidTarget (60_exceptions.md R182). -/
theorem exec_ne_valueTooLarge (i : Instr) (s : State) (v : Nat) (left : State) :
    exec i s ≠ .fault (.valueTooLarge v left) := fun h => nomatch ending_of_exec h

theorem step_ne_valueTooLarge (s : State) (v : Nat) (left : State) : step s ≠ .fault (.valueTooLarge v left) := by
  rw [step_eq_exec_current]
  exact exec_ne_valueTooLarge _ _ _ _

/-- Settles O6: the three outcomes by `MemWrite`'s checks in their order; that no step is ValueTooLarge by the endings of
`exec`. -/
theorem writeChecksThenStoresThenPublishes : Obligations.WriteChecksThenStoresThenPublishes := by
  refine ⟨fun a v s => ⟨fun hv => ?tooLarge, fun hv ha => ?outOfRange, fun hv ha => ?stored⟩, step_ne_valueTooLarge⟩
  case tooLarge =>
    have hw := memWrite_valueTooLarge hv a s
    exact ⟨hw, by rw [control_write, hw]; rfl⟩
  case outOfRange =>
    have hw := memWrite_outOfRange hv ha s
    exact ⟨hw, by rw [control_write, hw]; rfl⟩
  case stored =>
    have hw := memWrite_ok ha hv s
    exact ⟨s.mem.store a (reduce v), hw, by rw [control_write, hw]; rfl, memWrite_load hw⟩

/-- Settles O5, by `MemRead` on the two sides of capacity. -/
theorem readReturnsTheWordAndPublishesIt : Obligations.ReadReturnsTheWordAndPublishesIt := fun _ s =>
  ⟨fun ha => ⟨memRead_error ha s, control_read_error ha s⟩, fun ha => ⟨memRead_ok ha s, control_read_ok ha s⟩⟩

/-- Settles O7: the read sees the store at its own address, and neither changes what another address reads. -/
theorem readAfterWriteReturnsTheValue : Obligations.ReadAfterWriteReturnsTheValue := by
  intro a v s ha hv
  obtain ⟨t, hw⟩ : ∃ t : State, memWrite a v s = .ok t := ⟨_, memWrite_ok ha hv s⟩
  have load := memWrite_load hw
  have other (b : Nat) (hb : b ≠ a) := (load b).trans (if_neg hb)
  exact ⟨t, t.publish (.rd (reduce a) (reduce v)), hw, by rw [memRead_ok ha, load, if_pos rfl],
    fun b hb => ⟨other b hb, other b hb⟩⟩

/-- Settles O8: the witness is the reset state, which differs in its memory only. -/
theorem memResetZeroesMemoryAndPublishesNothing : Obligations.MemResetZeroesMemoryAndPublishesNothing := fun s =>
  ⟨memReset s, rfl, fun a _ => Memory.load_nil a, memReset_trace s, rfl, memReset_notified s, memReset_running s⟩

end Sys2Proof.Machine
end

/-! ### Proofs: the length of an instruction (30_encoding.md R50) -/

section
namespace Sys2Proof

/-- Opcode field 0 by the word's number (R52). -/
theorem opcodeField_eq_zero_iff (w : Word) : opcodeField w = 0 ↔ w.toNat % 16 = 0 := by
  simp [opcodeField, ← BitVec.toNat_inj]

/-- The target field by the word's number (R51). -/
theorem targetField_eq_ofNat (w : Word) : targetField w = BitVec.ofNat 6 (w.toNat / 16 % 64) := by
  simp [targetField, ← BitVec.toNat_inj, Nat.shiftRight_eq_div_pow]

/-- The source field by the word's number (R51). -/
theorem sourceField_eq_ofNat (w : Word) : sourceField w = BitVec.ofNat 6 (w.toNat / 1024) := by
  simp [sourceField, ← BitVec.toNat_inj, Nat.shiftRight_eq_div_pow]

theorem Instr.length_ofBasic (op : BasicOp) (t a : Operand) :
    (Instr.ofBasic op t a).length = 1 + t.extra + a.extra := by
  simp [Instr.length]

/-- A non-basic instruction has the one operand, whichever row of the table its opcode lies in (R57, R59). -/
theorem Instr.length_ofNonBasic (nb : BitVec 6) (a : Operand) : (Instr.ofNonBasic nb a).length = 1 + a.extra := by
  unfold Instr.ofNonBasic
  split_ifs <;> rfl

/-- The length `decode` gives, by the word's fields (R50). -/
theorem length_decode (w : Word) :
    (decode w).length =
      1 + (if opcodeField w = 0 then 0 else (Operand.ofCode (targetField w)).extra) +
        (Operand.ofCode (sourceField w)).extra := by
  unfold decode
  split
  next op hop =>
    have hne : opcodeField w ≠ 0 := fun h0 => nomatch (BasicOp.ofNumber_eq_none.2 h0).symm.trans hop
    rw [Instr.length_ofBasic, if_neg hne]
  next hop => rw [Instr.length_ofNonBasic, if_pos (BasicOp.ofNumber_eq_none.1 hop)]

theorem Instr.one_le_length (i : Instr) : 1 ≤ i.length := by
  unfold Instr.length
  omega

/-- Each of the at most two operands consumes at most one next word (R50). -/
theorem Instr.length_le_three (i : Instr) : i.length ≤ 3 := by
  have first := Machine.Operand.extra_le_one i.first
  unfold Instr.length
  cases i.second with
  | none => simp only; omega
  | some a =>
    have second := Machine.Operand.extra_le_one a
    simp only
    omega

/-- Settles O4: the fields by the word's number, then `extra` by the code's. -/
theorem lengthComesFromTheOperandFields : Obligations.LengthComesFromTheOperandFields := by
  refine fun w => ⟨?_, (decode w).one_le_length, (decode w).length_le_three⟩
  simp only [length_decode, opcodeField_eq_zero_iff, targetField_eq_ofNat, sourceField_eq_ofNat, Operand.extra_ofCode]

end Sys2Proof
end

/-! ### Proofs: the write contract and the fetch (40_step_and_operands.md R70, R71, R86) -/

section
namespace Sys2Proof.Machine

section
variable {op : Resolved} (v : Word) (s : State)

/-! `WriteOperand` by the location of the resolved operand, one equation per location (R86). -/

theorem writeOperand_of_loc_reg {r : Reg} (h : op.loc = .reg r) :
    writeOperand op v s = .ok (s.setReg r v, false) := by
  rw [writeOperand, h]

theorem writeOperand_of_loc_sp (h : op.loc = .sp) : writeOperand op v s = .ok (s.setSp v, false) := by
  rw [writeOperand, h]

theorem writeOperand_of_loc_o (h : op.loc = .o) : writeOperand op v s = .ok (s.setO v, false) := by
  rw [writeOperand, h]

theorem writeOperand_of_loc_pc (h : op.loc = .pc) : writeOperand op v s = .ok (s.setPc v, true) := by
  rw [writeOperand, h]

/-- Both Words are in range, so the memory write the operand delegates to passes both checks (R32, R86). -/
theorem writeOperand_of_loc_mem {a : Word} (h : op.loc = .mem a) :
    writeOperand op v s = .ok ((s.poke a.toNat v).publish (.wr a v), false) := by
  simp only [writeOperand, h, memWrite_word]

theorem writeOperand_of_loc_none (h : op.loc = .none) :
    writeOperand op v s = .error (.invalidTarget op.code s) := by
  rw [writeOperand, h, raise]

end

/-- Settles O12: the equation of each location, with the register file and the memory read back after the write. -/
theorem writeOperandWritesItsLocation : Obligations.WriteOperandWritesItsLocation := fun _ v s =>
  ⟨fun r h => ⟨s.regs.set r v, writeOperand_of_loc_reg v s h, fun q => Regs.get_set s.regs r q v⟩,
    writeOperand_of_loc_sp v s, writeOperand_of_loc_o v s, writeOperand_of_loc_pc v s,
    fun a h => ⟨s.mem.store a.toNat v, writeOperand_of_loc_mem v s h, fun n => Memory.load_store s.mem a.toNat n v⟩,
    writeOperand_of_loc_none v s⟩

/-- Settles O29: the fetch reads below capacity since PC is a Word, and the step goes on from the state it leaves. -/
theorem stepRunsTheDecodedInstruction : Obligations.StepRunsTheDecodedInstruction := fun s =>
  ⟨fetch_eq s, step_eq_exec_current s⟩

end Sys2Proof.Machine
end

/-! ### Proofs: the load (50_interfaces.md R172) -/

section
namespace Sys2Proof.Machine

/-- The memory with the words stored at consecutive addresses from `a`. -/
def Memory.storeFrom (m : Memory) (a : Nat) : List Word → Memory
  | [] => m
  | w :: ws => (m.store a w).storeFrom (a + 1) ws

/-- Read after the stores: below `a` as before, from `a` on the word of that place, past the last word as before. -/
theorem Memory.load_storeFrom (ws : List Word) (m : Memory) (a n : Nat) :
    (m.storeFrom a ws).load n = if n < a then m.load n else (ws[n - a]?).getD (m.load n) := by
  induction ws generalizing m a with
  | nil => simp [storeFrom]
  | cons w ws ih =>
    rw [storeFrom, ih, load_store]
    obtain below | here | above := Nat.lt_trichotomy n a
    · rw [if_pos (by omega), if_neg below.ne, if_pos below]
    · simp [here]
    · have index : n - a = n - (a + 1) + 1 := by omega
      rw [if_neg (by omega), if_neg above.ne', if_neg (by omega), index, List.getElem?_cons_succ]

/-- A load that ends below capacity: every `MemWrite` passes its checks, so the words are stored from `a` on, each with its
event, and nothing else changes (R172). -/
theorem loadFrom_ok (ws : List Word) (a : Nat) (s : State) (h : a + ws.length ≤ Config.capacity) :
    loadFrom a ws s = .ok { s with
      mem := s.mem.storeFrom a ws
      trace := s.trace ++ ws.mapIdx fun k w => .wr (reduce (a + k)) w } := by
  induction ws generalizing a s with
  | nil => simp [loadFrom, Memory.storeFrom]
  | cons w ws ih =>
    rw [List.length_cons] at h
    have first := memWrite_ok (v := w.toNat) (show a < Config.capacity by omega) (Nat.le_of_lt_succ w.isLt) s
    rw [reduce_toNat_word] at first
    simp only [loadFrom, first]
    rw [ih (a + 1) _ (by omega)]
    simp [State.publish, State.poke, Memory.storeFrom, List.mapIdx_cons, Nat.add_comm, Nat.add_left_comm]

/-- Settles O43: the load from address 0, whose every address is the word's place in the program. -/
theorem loadWritesTheProgramFromZero : Obligations.LoadWritesTheProgramFromZero := by
  intro p s hp
  have loaded := loadFrom_ok p 0 s ((Nat.zero_add _).trans_le hp)
  refine ⟨s.mem.storeFrom 0 p, ?_, fun n => ?_⟩
  · simp only [control, loaded, hostDone, Nat.zero_add]
  · simp [Memory.load_storeFrom]

end Sys2Proof.Machine
end

/-! ### Proofs: encoding (30_encoding.md R51 to R59) -/

section
namespace Sys2Proof

theorem decode_basicWord (op : BasicOp) (t a : Operand) : decode (basicWord op t a) = .ofBasic op t a := by
  simp [decode, basicWord]

theorem decode_nonBasicWord (nb : BitVec 6) (a : Operand) : decode (nonBasicWord nb a) = .ofNonBasic nb a := by
  rw [decode, nonBasicWord, opcodeField_joinFields, BasicOp.ofNumber_zero]
  simp only [targetField_joinFields, sourceField_joinFields, Operand.ofCode_code]

theorem nbWithin_iff {lo hi : Nat} {nb : BitVec 6} : nbWithin lo hi nb = true ↔ lo ≤ nb.toNat ∧ nb.toNat ≤ hi := by
  simp [nbWithin]

/-- JSR's number by value, so that the rows of R57 are ranges of one number. -/
theorem eq_jsrNumber_iff {nb : BitVec 6} : nb = jsrNumber ↔ nb.toNat = 1 := by
  simp [jsrNumber, ← BitVec.toNat_inj]

/-- A well-formed non-basic instruction is the one its opcode selects: its opcode lies in the row's own range (R57, R59). -/
theorem ofNonBasic_of_wellFormed {nb : BitVec 6} {a : Operand} {i : Instr} (h : i.wellFormed = true)
    (hi : i = .undef02to03 nb a ∨ i = .undef04to07 nb a ∨ i = .undef08to0f nb a ∨ i = .undef10to1f nb a ∨
      i = .undef20to3f nb a) : Instr.ofNonBasic nb a = i := by
  rcases hi with rfl | rfl | rfl | rfl | rfl
  all_goals
    have range := nbWithin_iff.1 h
    simp only [Instr.ofNonBasic, eq_jsrNumber_iff]
    grind

/-- Settles O2: each of the two word formats decodes to its fields, and a well-formed undefined row is the one its opcode
selects. -/
theorem decodeOfEncodeIsTheInstruction : Obligations.DecodeOfEncodeIsTheInstruction := by
  intro i h
  cases i with
  | set | add | sub | mul | div | mod | shl | shr | and | bor | xor | ife | ifn | ifg | ifb =>
    exact decode_basicWord _ _ _
  | jsr a => exact decode_nonBasicWord jsrNumber a
  | undef00 a => exact decode_nonBasicWord 0x00 a
  | undef02to03 nb a | undef04to07 nb a | undef08to0f nb a | undef10to1f nb a | undef20to3f nb a =>
    exact (decode_nonBasicWord nb a).trans (ofNonBasic_of_wellFormed h (by simp))

/-- Every non-basic opcode has a row, which keeps the opcode (R57, R59). -/
theorem wellFormed_encode_ofNonBasic (nb : BitVec 6) (a : Operand) :
    (Instr.ofNonBasic nb a).wellFormed = true ∧ encode (.ofNonBasic nb a) = nonBasicWord nb a := by
  have below := nb.isLt
  simp only [Instr.ofNonBasic, eq_jsrNumber_iff]
  split_ifs with h1 h2
  · exact ⟨rfl, by rw [eq_jsrNumber_iff.2 h1]; rfl⟩
  · exact ⟨rfl, by rw [show nb = 0 from BitVec.eq_of_toNat_eq (by simp; omega)]; rfl⟩
  all_goals exact ⟨nbWithin_iff.2 (by omega), rfl⟩

/-- Settles O3: either format's word is the join of its own fields, which tile it. -/
theorem encodeOfDecodeIsTheWord : Obligations.EncodeOfDecodeIsTheWord := by
  intro w
  unfold decode
  split
  next op hop =>
    refine ⟨wellFormed_ofBasic _ _ _, ?_⟩
    rw [encode_ofBasic, basicWord, Operand.code_ofCode, Operand.code_ofCode, BasicOp.number_of_ofNumber hop,
      joinFields_fields]
  next hop =>
    obtain ⟨wf, word⟩ := wellFormed_encode_ofNonBasic (targetField w) (.ofCode (sourceField w))
    refine ⟨wf, ?_⟩
    rw [word, nonBasicWord, Operand.code_ofCode, ← BasicOp.ofNumber_eq_none.1 hop, joinFields_fields]

/-- Settles O1: eight closed words, evaluated. -/
theorem writtenOutWordsDecode : Obligations.WrittenOutWordsDecode := by
  unfold Obligations.WrittenOutWordsDecode
  decide

end Sys2Proof
end

/-! ### Proofs: the canonical form of memory (10_state.md section 7) -/

section
namespace Sys2Proof.Machine

section
variable {k : Nat} {w : Word} {m : Memory}

theorem Memory.load_head : Memory.load ((k, w) :: m) k = w := by rw [load_cons, if_pos rfl]

/-- Below the first listed address every word reads 0. -/
theorem Memory.load_below_head {a : Nat} (h : Memory.wf ((k, w) :: m) = true) (ha : a < k) :
    Memory.load ((k, w) :: m) a = 0 := by
  obtain ⟨-, -, above, -⟩ := (wf_cons k w m).1 h
  refine load_eq_zero_of_lt fun c hc => ?_
  obtain rfl | hc := List.mem_cons.1 hc
  · exact ha
  · exact ha.trans (above c hc)

/-- The tail of a canonical memory reads as the whole does, but for the first listed address, where it reads 0. -/
theorem Memory.load_tail (h : Memory.wf ((k, w) :: m) = true) (a : Nat) :
    m.load a = if a = k then 0 else Memory.load ((k, w) :: m) a := by
  obtain ⟨-, -, above, -⟩ := (wf_cons k w m).1 h
  split
  next ha => exact load_eq_zero_of_lt fun c hc => ha ▸ above c hc
  next ha => rw [load_cons, if_neg (Ne.symm ha)]

/-- A canonical memory with a cell does not read 0 at that cell's address. -/
theorem Memory.load_head_ne_zero (h : Memory.wf ((k, w) :: m) = true) : Memory.load ((k, w) :: m) k ≠ 0 := by
  obtain ⟨-, nonzero, -, -⟩ := (wf_cons k w m).1 h
  rwa [load_head]
end

/-- Settles O9, by induction on both lists: the least address that does not read 0 is the first cell's, so the first cells
agree, and the tails read alike. -/
theorem canonicalMemoriesThatReadAlikeAreEqual : Obligations.CanonicalMemoriesThatReadAlikeAreEqual := by
  intro m
  induction m with
  | nil =>
    rintro (_ | ⟨⟨k, w⟩, n⟩) - hn alike
    · rfl
    · exact absurd (alike k).symm (Memory.load_head_ne_zero hn)
  | cons c m ih =>
    obtain ⟨k, w⟩ := c
    rintro (_ | ⟨⟨l, v⟩, n⟩) hm hn alike
    · exact absurd (alike k) (Memory.load_head_ne_zero hm)
    · have key : k = l := by
        obtain lt | eq | gt := Nat.lt_trichotomy k l
        · exact absurd ((alike k).trans (Memory.load_below_head hn lt)) (Memory.load_head_ne_zero hm)
        · exact eq
        · exact absurd ((alike l).symm.trans (Memory.load_below_head hm gt)) (Memory.load_head_ne_zero hn)
      subst key
      have head : w = v := by simpa only [Memory.load_head] using alike k
      obtain ⟨-, -, -, tailM⟩ := (Memory.wf_cons k w m).1 hm
      obtain ⟨-, -, -, tailN⟩ := (Memory.wf_cons k v n).1 hn
      rw [head, ih n tailM tailN fun a => by rw [Memory.load_tail hm, Memory.load_tail hn, alike]]

end Sys2Proof.Machine
end

/-! ### Proofs: operand resolution (40_step_and_operands.md R72 to R82) -/

section
namespace Sys2Proof.Machine

/-- What an out-of-range operand reports is an address past the top (60_exceptions.md R181). -/
theorem capacity_le_of_operandFault {op : Operand} {len n : Nat} {s : State} (h : operandFault op len s = some n) :
    Config.capacity ≤ n := by
  unfold operandFault at h
  split at h
  next past => exact Option.some.inj h ▸ past.2
  next =>
    split at h
    next =>
      split at h
      next past => exact Option.some.inj h ▸ past
      next => cases h
    next => cases h

/-- Settles O11, by what resolution answers out of range. -/
theorem operandPastTheTopIsOutOfRange : Obligations.OperandPastTheTopIsOutOfRange := fun _ _ _ _ h =>
  ⟨capacity_le_of_operandFault h, resolve_error h⟩

/-- Whether a code has a next word, by its number (30_encoding.md R50). -/
theorem extra_ofCode_eq_one_iff (c : BitVec 6) :
    (Operand.ofCode c).extra = 1 ↔ (0x10 ≤ c.toNat ∧ c.toNat ≤ 0x17) ∨ c.toNat = 0x1e ∨ c.toNat = 0x1f := by
  rw [Operand.extra_ofCode]
  split_ifs with h <;> simp [h]

/-- Settles O10: the 64 codes one by one, and resolution in range by the record it answers. -/
theorem operandsResolveAsTheTableSays : Obligations.OperandsResolveAsTheTableSays := by
  refine ⟨?registers, by decide, by decide, fun c len s h => ?resolution⟩
  case registers =>
    have rows : ∀ row ∈ [(0, Reg.a), (1, .b), (2, .c), (3, .x), (4, .y), (5, .z), (6, .i), (7, .j)],
        Operand.ofCode (BitVec.ofNat 6 row.1) = .reg row.2 ∧ Operand.ofCode (BitVec.ofNat 6 (0x08 + row.1)) = .ind row.2 ∧
        Operand.ofCode (BitVec.ofNat 6 (0x10 + row.1)) = .idx row.2 := by decide
    exact fun k r h => rows (k, r) h
  case resolution =>
    simp only [resolve_ok h, resolved, Operand.code_ofCode, extra_ofCode_eq_one_iff]

end Sys2Proof.Machine
end

/-! ### Proofs: one equation for each way an instruction ends (40_step_and_operands.md R70) -/

section
namespace Sys2Proof.Machine

/-! The states that `exec` passes through, field by field. -/

section
variable (i : Instr) (a : Operand) (s : State)

@[simp] theorem State.decoded_regs : (s.decoded i a).regs = s.regs := rfl
@[simp] theorem State.decoded_sp : (s.decoded i a).sp = s.sp + stackDelta i.first + stackDelta a := rfl
@[simp] theorem State.decoded_pc : (s.decoded i a).pc = s.pc := rfl
@[simp] theorem State.decoded_o : (s.decoded i a).o = s.o := rfl
@[simp] theorem State.decoded_skip : (s.decoded i a).skip = s.skip := rfl
@[simp] theorem State.decoded_steps : (s.decoded i a).steps = s.steps := rfl
@[simp] theorem State.decoded_mem : (s.decoded i a).mem = s.mem := rfl
@[simp] theorem State.decoded_trace : (s.decoded i a).trace = s.trace ++ instrReads i s := rfl
@[simp] theorem State.decoded_notified : (s.decoded i a).notified = s.notified := rfl
@[simp] theorem State.decoded_running : (s.decoded i a).running = s.running := rfl

@[simp] theorem State.beforeWrite_regs : (s.beforeWrite i a).regs = s.regs := by simp [beforeWrite]
@[simp] theorem State.beforeWrite_sp : (s.beforeWrite i a).sp = s.sp + stackDelta i.first + stackDelta a := by
  simp [beforeWrite]
@[simp] theorem State.beforeWrite_pc : (s.beforeWrite i a).pc = s.pc := by simp [beforeWrite]
@[simp] theorem State.beforeWrite_o :
    (s.beforeWrite i a).o = (earlyO i (operandValue i.first 1 s) (sourceValue i s)).getD s.o := by
  simp [beforeWrite]
@[simp] theorem State.beforeWrite_skip : (s.beforeWrite i a).skip = s.skip := by simp [beforeWrite]
@[simp] theorem State.beforeWrite_steps : (s.beforeWrite i a).steps = s.steps := by simp [beforeWrite]
@[simp] theorem State.beforeWrite_mem : (s.beforeWrite i a).mem = s.mem := by simp [beforeWrite]
@[simp] theorem State.beforeWrite_trace : (s.beforeWrite i a).trace = s.trace ++ instrReads i s := by
  simp [beforeWrite]
@[simp] theorem State.beforeWrite_notified : (s.beforeWrite i a).notified = s.notified := by simp [beforeWrite]
@[simp] theorem State.beforeWrite_running : (s.beforeWrite i a).running = s.running := by simp [beforeWrite]

@[simp] theorem passedOver_regs : (passedOver i s).regs = s.regs := rfl
@[simp] theorem passedOver_sp : (passedOver i s).sp = s.sp := rfl
@[simp] theorem passedOver_pc : (passedOver i s).pc = reduce (s.pc.toNat + i.length) := rfl
@[simp] theorem passedOver_o : (passedOver i s).o = s.o := rfl
@[simp] theorem passedOver_skip : (passedOver i s).skip = false := rfl
@[simp] theorem passedOver_steps : (passedOver i s).steps = s.steps + 1 := rfl
@[simp] theorem passedOver_mem : (passedOver i s).mem = s.mem := rfl
@[simp] theorem passedOver_trace : (passedOver i s).trace = s.trace ++ instrReads i s := rfl
@[simp] theorem passedOver_notified : (passedOver i s).notified = s.notified + 1 := rfl
@[simp] theorem passedOver_running : (passedOver i s).running = s.running := rfl
end

/-! The fetch publishes one event, which no claim term reads. -/

section
variable (i : Instr) (op : Operand) (len : Nat) (s : State)

@[simp] theorem operandAddress_fetched : operandAddress op len s.fetched = operandAddress op len s :=
  operandAddress_publishAll op len s _
@[simp] theorem operandValue_fetched : operandValue op len s.fetched = operandValue op len s :=
  operandValue_publishAll op len s _
@[simp] theorem decodeFault_fetched : decodeFault i s.fetched = decodeFault i s := decodeFault_publishAll i s _
@[simp] theorem sourceValue_fetched : sourceValue i s.fetched = sourceValue i s := sourceValue_publishAll i s _
@[simp] theorem instrReads_fetched : instrReads i s.fetched = instrReads i s := instrReads_publishAll i s _
@[simp] theorem readsBeforeFault_fetched : readsBeforeFault i s.fetched = readsBeforeFault i s :=
  readsBeforeFault_publishAll i s _
end

/-- How a step ends: as its instruction does on the fetched state. -/
theorem ending_of_step {s : State} {r : Host.Outcome State Fault Refusal} (h : step s = r) :
    Ending s.current s.fetched r :=
  ending_of_exec (step_eq_exec_current s ▸ h)

/-! The kinds of instruction: a basic one has a source, and among those without one an undefined opcode is not JSR. -/

theorem Instr.second_eq_none_iff {i : Instr} : i.second = none ↔ undefinedOpcode i = true ∨ i.isJsr = true := by
  cases i <;> simp [Instr.second, undefinedOpcode, Instr.isJsr]

theorem Instr.exists_second_of_writesTarget {i : Instr} (h : i.writesTarget = true) : ∃ a, i.second = some a := by
  refine Option.ne_none_iff_exists'.1 fun h' => ?_
  revert h h'
  cases i <;> simp [Instr.second, Instr.writesTarget]

/-! The endings that need no more than `Ending`. -/

section
variable {i : Instr} {a : Operand} {s : State}

/-- A skipped instruction (R84). -/
theorem exec_skipped (range : decodeFault i s = none) (pending : s.skip = true) :
    exec i s = .next (passedOver i s) := by
  generalize h : exec i s = r
  cases ending_of_exec h with
  | outOfRange n fault => exact nomatch range.symm.trans fault
  | skipped => rfl
  | wrote _ skip | literalTarget _ skip | compared _ skip | called _ skip => exact nomatch pending.symm.trans skip
  | undefined => rfl

/-- An undefined opcode, skipped or not (44_nonbasic_jsr.md R151). -/
theorem exec_undefined (range : decodeFault i s = none) (opcode : undefinedOpcode i = true) :
    exec i s = .next (passedOver i s) := by
  have noSource : i.second = none := Instr.second_eq_none_iff.2 (.inl opcode)
  generalize h : exec i s = r
  cases ending_of_exec h with
  | outOfRange n fault => exact nomatch range.symm.trans fault
  | wrote _ _ _ _ _ source | literalTarget _ _ _ _ _ source | compared _ _ _ _ _ source =>
    exact nomatch noSource.symm.trans source
  | called _ _ _ jsr => subst jsr; cases opcode
  | skipped | undefined => rfl

/-- JSR (44_nonbasic_jsr.md R150). -/
theorem exec_jsr (range : decodeFault (.jsr a) s = none) (skip : s.skip = false) :
    exec (.jsr a) s = .next (finish (Instr.jsr a).length true
      (((((s.publishAll (instrReads (.jsr a) s)).setSp (s.sp + stackDelta a - 1)).poke (s.sp + stackDelta a - 1).toNat
        (reduce (s.pc.toNat + (Instr.jsr a).length))).publish
          (.wr (s.sp + stackDelta a - 1) (reduce (s.pc.toNat + (Instr.jsr a).length)))).setPc (operandValue a 1 s))) := by
  generalize h : exec (.jsr a) s = r
  cases ending_of_exec h with
  | outOfRange n fault => exact nomatch range.symm.trans fault
  | skipped _ pending => exact nomatch skip.symm.trans pending
  | wrote _ _ writer | literalTarget _ _ writer => cases writer
  | compared _ _ _ jsr => cases jsr
  | undefined _ _ opcode => cases opcode
  | called _ _ _ jsr => cases jsr; rfl

/-- A conditional, `b` telling whether its condition is false (43_conditional_skip.md R140). -/
theorem exec_conditional (range : decodeFault i s = none) (skip : s.skip = false) (writer : i.writesTarget = false)
    (source : i.second = some a) {b : Bool}
    (condition : b = true ↔ conditionFails i (operandValue i.first 1 s) (sourceValue i s)) :
    exec i s = .next (finish i.length false ((s.decoded i a).setSkip b)) := by
  generalize h : exec i s = r
  cases ending_of_exec h with
  | outOfRange n fault => exact nomatch range.symm.trans fault
  | skipped _ pending => exact nomatch skip.symm.trans pending
  | wrote _ _ writer' | literalTarget _ _ writer' => exact nomatch writer.symm.trans writer'
  | undefined _ _ opcode => exact nomatch source.symm.trans (Instr.second_eq_none_iff.2 (.inl opcode))
  | called _ _ _ jsr => subst jsr; cases source
  | compared _ _ _ _ a' source' b' condition' =>
    obtain rfl : a = a' := Option.some.inj (source.symm.trans source')
    obtain rfl : b = b' := Bool.eq_iff_iff.2 (condition.trans condition'.symm)
    rfl

/-- A writer with a literal target (60_exceptions.md R183, R184). -/
theorem exec_literalTarget (range : decodeFault i s = none) (skip : s.skip = false) (writer : i.writesTarget = true)
    (literal : i.first.isLiteral = true) (source : i.second = some a) :
    exec i s = .fault (.invalidTarget i.first.code (s.beforeWrite i a)) := by
  generalize h : exec i s = r
  cases ending_of_exec h with
  | outOfRange n fault => exact nomatch range.symm.trans fault
  | skipped _ pending => exact nomatch skip.symm.trans pending
  | wrote _ _ _ literal' => exact nomatch literal.symm.trans literal'
  | compared _ _ writer' => exact nomatch writer.symm.trans writer'
  | undefined _ _ opcode => exact nomatch source.symm.trans (Instr.second_eq_none_iff.2 (.inl opcode))
  | called _ _ _ jsr => subst jsr; cases source
  | literalTarget _ _ _ _ a' source' =>
    obtain rfl : a = a' := Option.some.inj (source.symm.trans source')
    rfl
end

/-! A writer that completes: `Ending` says that it wrote some value, the rest of this section says which. -/

/-- The value a writer gives its target, from its operands' values; what it is for the other instructions is of no
matter. -/
def targetValue (i : Instr) (x y : Word) : Word :=
  match i with
  | .set _ _ => y
  | .add _ _ => x + y
  | .sub _ _ => x - y
  | .mul _ _ => reduce (mulProduct x y)
  | .div _ _ => divQuotient x y
  | .mod _ _ => modRemainder x y
  | .shl _ _ => reduce (shlValue x y)
  | .shr _ _ => shrResult x y
  | .and _ _ => x &&& y
  | .bor _ _ => x ||| y
  | .xor _ _ => x ^^^ y
  | .ife _ _ | .ifn _ _ | .ifg _ _ | .ifb _ _ | .jsr _ | .undef00 _ => x
  | .undef02to03 _ _ | .undef04to07 _ _ | .undef08to0f _ _ | .undef10to1f _ _ | .undef20to3f _ _ => x

/-- The O value a writer writes after its target (41_move_arith.md R107). -/
def lateO (i : Instr) (x y : Word) : Option Word :=
  match i with
  | .mul _ _ => some (highHalf (mulProduct x y))
  | .div _ _ => some (divFraction x y)
  | .shl _ _ => some (highHalf (shlValue x y))
  | .shr _ _ => some (shrOut x y)
  | .set _ _ | .add _ _ | .sub _ _ | .mod _ _ | .and _ _ | .bor _ _ | .xor _ _ => none
  | .ife _ _ | .ifn _ _ | .ifg _ _ | .ifb _ _ | .jsr _ | .undef00 _ => none
  | .undef02to03 _ _ | .undef04to07 _ _ | .undef08to0f _ _ | .undef10to1f _ _ | .undef20to3f _ _ => none

/-- The write of a target, with O written after it where there is a late O. -/
def writeWithLateO (op : Resolved) (v : Word) (late : Option Word) (s : State) : Except Fault (State × Bool) :=
  match late with
  | none => writeOperand op v s
  | some o => writeThenO op v o s

theorem settle_writeWithLateO {t : Operand} (ht : t.isLiteral = false) (len : Nat) (v : Word) (late : Option Word)
    (s0 s : State) :
    settle len (writeWithLateO (resolved t 1 s0) v late s) =
      .next (finish len (decide (t = .pc)) ((written t 1 v s0 s).optO late)) := by
  cases late with
  | none => exact settle_writeOperand ht len v s0 s
  | some o => exact settle_writeThenO ht len v o s0 s

/-- ADD reduces its sum by hand on a carry; either way the target gets the sum mod 2^16 (R101). -/
theorem addBody_eq (rt ra : Resolved) (s : State) :
    addBody rt ra s =
      writeOperand rt (rt.val + ra.val) (s.optO (if 0xFFFF < rt.val.toNat + ra.val.toNat then some 1 else none)) := by
  unfold addBody addSum
  split_ifs
  · rw [show reduce (rt.val.toNat + ra.val.toNat - 0x10000) = rt.val + ra.val by bv_omega]
    rfl
  · rw [show reduce (rt.val.toNat + ra.val.toNat) = rt.val + ra.val by bv_omega]
    rfl

theorem subDiff_neg_iff (x y : Word) : subDiff x y < 0 ↔ x.toNat < y.toNat := by
  unfold subDiff
  omega

/-- SUB reduces its difference by hand on a borrow; either way the target gets the difference mod 2^16 (R102). -/
theorem subBody_eq (rt ra : Resolved) (s : State) :
    subBody rt ra s =
      writeOperand rt (rt.val - ra.val) (s.optO (if rt.val.toNat < ra.val.toNat then some 0xFFFF else none)) := by
  simp only [subBody, subDiff_neg_iff]
  have hx := rt.val.isLt
  have hy := ra.val.isLt
  split_ifs with h
  · rw [show reduce (0x10000 + subDiff rt.val ra.val).toNat = rt.val - ra.val from
      BitVec.eq_of_toNat_eq (by simp only [subDiff, BitVec.toNat_ofNat, BitVec.toNat_sub]; omega)]
    rfl
  · rw [show reduce (subDiff rt.val ra.val).toNat = rt.val - ra.val from
      BitVec.eq_of_toNat_eq (by simp only [subDiff, BitVec.toNat_ofNat, BitVec.toNat_sub]; omega)]
    rfl

section
variable {i : Instr} {a : Operand} {s : State} (range : decodeFault i s = none) (skip : s.skip = false)
  (writer : i.writesTarget = true) (source : i.second = some a)
include range skip writer source

/-- A writer that executes writes `targetValue`, O before and after it by the two tables (R86, R107). -/
theorem exec_writer_settle :
    exec i s = settle i.length (writeWithLateO (resolved i.first 1 s)
      (targetValue i (operandValue i.first 1 s) (sourceValue i s)) (lateO i (operandValue i.first 1 s) (sourceValue i s))
      (s.beforeWrite i a)) := by
  cases i with
  | set | mul | div | mod | shl | shr | and | bor | xor =>
    cases source
    exact exec_basic rfl rfl rfl range skip
  | add t a =>
    cases source
    exact (exec_basic rfl rfl rfl range skip).trans (congrArg _ (addBody_eq _ _ _))
  | sub t a =>
    cases source
    exact (exec_basic rfl rfl rfl range skip).trans (congrArg _ (subBody_eq _ _ _))
  | ife | ifn | ifg | ifb | jsr | undef00 | undef02to03 | undef04to07 | undef08to0f | undef10to1f | undef20to3f =>
    cases writer

/-- The state a completed writer leaves. -/
theorem exec_writer (literal : i.first.isLiteral = false) :
    exec i s = .next (finish i.length (decide (i.first = .pc))
      ((written i.first 1 (targetValue i (operandValue i.first 1 s) (sourceValue i s)) s (s.beforeWrite i a)).optO
        (lateO i (operandValue i.first 1 s) (sourceValue i s)))) := by
  rw [exec_writer_settle range skip writer source, settle_writeWithLateO literal]

end

end Sys2Proof.Machine
end

/-! ### Proofs: the invariants (10_state.md sections 7 and 8, 20_memory.md section 5) -/

section
namespace Sys2Proof.Machine

/-! What every state that a step can leave satisfies, and the host's commands made of such steps. -/

/-- The state an outcome leaves, completed or aborted, satisfies `P`. -/
def Leaves (P : State → Prop) : Host.Outcome State Fault Refusal → Prop
  | .next s => P s
  | .fault f => P f.left
  | .refused _ => True

theorem toNat_reduce {a : Nat} (ha : a < Config.capacity) : (reduce a).toNat = a :=
  (BitVec.toNat_ofNat a 16).trans (Nat.mod_eq_of_lt ha)

section
variable {P : State → Prop}
  (step_keeps : ∀ s, P s → Leaves P (step s))
  (setRunning_keeps : ∀ s b, P s → P (s.setRunning b))
  (read_keeps : ∀ (a : Word) s, P s → P (s.publish (.rd a (s.mem.load a.toNat))))
  (write_keeps : ∀ (a v : Word) s, P s → P ((s.poke a.toNat v).publish (.wr a v)))

include step_keeps setRunning_keeps in
theorem runSteps_keeps (n : Nat) {s : State} (hs : P s) : P (runSteps n s).1 := by
  induction n generalizing s with
  | zero => exact hs
  | succ n ih =>
    have left := step_keeps s hs
    cases h : step s with
    | next s1 => rw [runSteps_of_next h]; rw [h] at left; exact ih left
    | fault f => rw [runSteps_of_fault h]; rw [h] at left; exact setRunning_keeps _ _ left
    | refused r => simp only [runSteps, h]; exact setRunning_keeps _ _ hs

include write_keeps in
theorem memWrite_keeps (a v : Nat) {s : State} (hs : P s) : P (hostDone (memWrite a v s)).1 := by
  obtain ⟨-, h⟩ | ⟨-, -, h⟩ | ⟨-, ha, h⟩ := memWrite_cases a v s <;> rw [h]
  · exact hs
  · exact hs
  · have kept := write_keeps (reduce a) (reduce v) s hs
    rwa [toNat_reduce ha] at kept

include write_keeps in
/-- A load keeps what every write keeps, where it ends above the top of memory too. -/
theorem loadFrom_keeps (ws : List Word) (a : Nat) {s : State} (hs : P s) : P (hostDone (loadFrom a ws s)).1 := by
  induction ws generalizing a s with
  | nil => exact hs
  | cons w ws ih =>
    have kept := memWrite_keeps write_keeps a w.toNat hs
    cases h : memWrite a w.toNat s with
    | error f => simpa only [loadFrom, h] using kept
    | ok s1 =>
      rw [loadFrom, h]
      rw [h] at kept
      exact ih (a + 1) kept

include step_keeps setRunning_keeps read_keeps write_keeps in
/-- Every host command but MemReset is made of steps, reads, writes and the schedule (50_interfaces.md R165). -/
theorem control_keeps {c : Command} (hc : c ≠ .memReset) {s : State} (hs : P s) : P (control c s).1 := by
  cases c with
  | step => exact runSteps_keeps step_keeps setRunning_keeps 1 hs
  | run | stop => exact setRunning_keeps _ _ hs
  | batch n =>
    simp only [control]
    split
    · exact runSteps_keeps step_keeps setRunning_keeps _ hs
    · exact hs
  | read a =>
    by_cases ha : a < Config.capacity
    · rw [control_read_ok ha]
      have kept := read_keeps (reduce a) s hs
      rwa [toNat_reduce ha] at kept
    · rw [control_read_error (Nat.le_of_not_lt ha)]
      exact hs
  | write a v => exact memWrite_keeps write_keeps a v hs
  | memReset => exact absurd rfl hc
  | load p => exact loadFrom_keeps write_keeps p 0 hs
end

/-! The first invariant: memory in canonical form, one notification per counted step. -/

theorem written_mem_wf (t : Operand) (len : Nat) (v : Word) (s0 : State) {s : State} (h : s.mem.wf = true) :
    (written t len v s0 s).mem.wf = true := by
  unfold written
  cases operandLoc t len s0 with
  | mem a => exact Memory.wf_store v h (word_lt_capacity a)
  | reg | sp | pc | o | none => exact h

theorem exec_leaves_inv (i : Instr) {s : State} (hs : s.inv) : Leaves State.inv (exec i s) := by
  obtain ⟨wf, counted⟩ := hs
  have counted' : s.notified + 1 = s.steps + 1 := congrArg (· + 1) counted
  generalize h : exec i s = r
  cases ending_of_exec h with
  | outOfRange => exact ⟨wf, counted⟩
  | literalTarget => exact ⟨by simpa, by simpa⟩
  | skipped | undefined | compared => exact ⟨wf, counted'⟩
  | wrote => exact ⟨by simpa using written_mem_wf _ _ _ _ (by simpa), by simpa⟩
  | called => exact ⟨Memory.wf_store _ wf (word_lt_capacity _), counted'⟩

theorem step_leaves_inv (s : State) (hs : s.inv) : Leaves State.inv (step s) :=
  step_eq_exec_current s ▸ exec_leaves_inv s.current (show s.fetched.inv from hs)

/-- Settles O39, by the endings of `exec`: no word is stored but below capacity, and each completed step adds one to both
counts. -/
theorem stepKeepsTheInvariant : Obligations.StepKeepsTheInvariant := by
  intro s s' hs h
  have left := step_leaves_inv s hs
  rwa [h] at left

/-! The second invariant: the trace explains memory, and its reads saw the latest writes (20_memory.md R40). -/

@[simp] theorem lastWritten_append_rd (trace : List Event) (a v b : Word) :
    lastWritten (trace ++ [.rd a v]) b = lastWritten trace b := by
  simp [lastWritten]

@[simp] theorem lastWritten_append_wr (trace : List Event) (a v b : Word) :
    lastWritten (trace ++ [.wr a v]) b = if a = b then v else lastWritten trace b := by
  simp [lastWritten]

theorem coherent_nil : coherent [] := fun _ _ _ _ h => by simp at h

/-- A coherent trace stays coherent by one more event, if that is a write or a read of the latest write. -/
theorem coherent_append {trace : List Event} {e : Event} (h : coherent trace)
    (he : ∀ a v : Word, e = .rd a v → v = lastWritten trace a) : coherent (trace ++ [e]) := by
  intro before after a v parts
  obtain rfl | ⟨after, last, rfl⟩ := List.eq_nil_or_concat after
  · obtain ⟨rfl, he'⟩ := List.append_inj' parts rfl
    exact he a v (List.head_eq_of_cons_eq he')
  · rw [List.concat_eq_append, ← List.cons_append, ← List.append_assoc] at parts
    exact h before after a v (List.append_inj' parts rfl).1

/-- The invariant speaks of the trace and the memory only. -/
theorem State.sequential_congr {s t : State} (htrace : t.trace = s.trace) (hmem : t.mem = s.mem) (hs : s.sequential) :
    t.sequential := by
  unfold sequential
  rwa [htrace, hmem]

theorem sequential_read (a : Word) {s : State} (hs : s.sequential) :
    (s.publish (.rd a (s.mem.load a.toNat))).sequential := by
  obtain ⟨reads, explained⟩ := hs
  refine ⟨coherent_append reads fun b v h => ?_, fun b => ?_⟩
  · cases h
    exact explained a
  · rw [State.publish_trace, lastWritten_append_rd]
    exact explained b

theorem sequential_write (a v : Word) {s : State} (hs : s.sequential) :
    ((s.poke a.toNat v).publish (.wr a v)).sequential := by
  obtain ⟨reads, explained⟩ := hs
  refine ⟨coherent_append reads nofun, fun b => ?_⟩
  simp only [State.publish_mem, State.poke_mem, Memory.load_store, State.publish_trace, State.poke_trace,
    lastWritten_append_wr, BitVec.toNat_inj, eq_comm (a := b), explained b]

/-- The event is a read that returned the word the memory holds. -/
def trueRead (m : Memory) (e : Event) : Prop := ∃ a : Word, e = .rd a (m.load a.toNat)

theorem trueRead_of_lt (m : Memory) {n : Nat} (h : n < Config.capacity) : trueRead m (.rd (reduce n) (m.load n)) :=
  ⟨reduce n, by rw [toNat_reduce h]⟩

theorem sequential_publishAll {es : List Event} {s : State} (hs : s.sequential) (h : ∀ e ∈ es, trueRead s.mem e) :
    (s.publishAll es).sequential := by
  induction es generalizing s with
  | nil => rwa [publishAll_nil]
  | cons e es ih =>
    obtain ⟨⟨a, rfl⟩, rest⟩ := List.forall_mem_cons.1 h
    rw [show s.publishAll (_ :: es) = (s.publish _).publishAll es from (publishAll_append s [_] es).symm]
    exact ih (sequential_read a hs) rest

section
variable {i : Instr} {op : Operand} {len : Nat} {s : State}

theorem nextWordReads_trueRead : ∀ e ∈ nextWordReads op len s, trueRead s.mem e := by
  unfold nextWordReads
  split
  next h => exact List.forall_mem_singleton.2 (trueRead_of_lt s.mem h.2)
  next => exact nofun

theorem operandReads_trueRead (range : operandFault op len s = none) :
    ∀ e ∈ operandReads op len s, trueRead s.mem e := by
  refine List.forall_mem_append.2 ⟨nextWordReads_trueRead, ?_⟩
  cases h : operandAddress op len s with
  | none => exact nofun
  | some n => exact List.forall_mem_singleton.2 (trueRead_of_lt s.mem (operandAddress_lt range h))

theorem instrReads_trueRead (range : decodeFault i s = none) : ∀ e ∈ instrReads i s, trueRead s.mem e := by
  cases h : i.second with
  | none =>
    have first := readable_nonBasic rfl h (readable_iff.2 range)
    simpa only [instrReads, h, List.append_nil] using operandReads_trueRead first
  | some a =>
    obtain ⟨first, second⟩ := readable_basic rfl h (readable_iff.2 range)
    simpa only [instrReads, h] using
      List.forall_mem_append.2 ⟨operandReads_trueRead first, operandReads_trueRead second⟩

theorem readsBeforeFault_trueRead : ∀ e ∈ readsBeforeFault i s, trueRead s.mem e := by
  unfold readsBeforeFault
  split
  next => exact nextWordReads_trueRead
  next first =>
    refine List.forall_mem_append.2 ⟨operandReads_trueRead first, ?_⟩
    split
    · exact nextWordReads_trueRead
    · exact nofun

end

theorem sequential_written (t : Operand) (len : Nat) (v : Word) (s0 : State) {s : State} (hs : s.sequential) :
    (written t len v s0 s).sequential := by
  unfold written
  cases operandLoc t len s0 with
  | mem a => exact sequential_write a v hs
  | reg | sp | pc | o | none => exact hs

theorem exec_leaves_sequential (i : Instr) {s : State} (hs : s.sequential) : Leaves State.sequential (exec i s) := by
  have read (range : decodeFault i s = none) : (s.publishAll (instrReads i s)).sequential :=
    sequential_publishAll hs (instrReads_trueRead range)
  have beforeWrite (range : decodeFault i s = none) (a : Operand) : (s.beforeWrite i a).sequential :=
    State.sequential_congr (by simp) (by simp) (read range)
  generalize h : exec i s = r
  cases ending_of_exec h with
  | outOfRange => exact sequential_publishAll hs readsBeforeFault_trueRead
  | literalTarget range _ _ _ a => exact beforeWrite range a
  | skipped range | undefined range | compared range => exact read range
  | wrote range _ _ _ a =>
    exact State.sequential_congr (State.optO_trace _ _) (State.optO_mem _ _)
      (sequential_written _ _ _ _ (beforeWrite range a))
  | called range => exact sequential_write _ _ (s := State.setSp _ _) (read range)

theorem step_leaves_sequential (s : State) (hs : s.sequential) : Leaves State.sequential (step s) :=
  step_eq_exec_current s ▸ exec_leaves_sequential s.current (sequential_read s.pc hs)

/-- Settles O40, by the endings of `exec`: what a step publishes are reads of the words that memory holds, then at most the
one write it makes. -/
theorem stepKeepsSequentialConsistency : Obligations.StepKeepsSequentialConsistency := by
  intro s hs
  have left := step_leaves_sequential s hs
  refine ⟨fun s' h => ?_, fun f h => ?_⟩ <;> rwa [h] at left

/-- Settles O41: each invariant is kept by steps, reads, writes and the schedule, and the first by MemReset too. -/
theorem hostCommandsKeepTheInvariants : Obligations.HostCommandsKeepTheInvariants := by
  refine fun c s => ⟨fun hs => ?_, fun hc hs => ?_⟩
  · by_cases hc : c = .memReset
    · subst hc
      exact ⟨Memory.wf_nil, hs.2⟩
    · exact control_keeps step_leaves_inv (fun _ _ h => h) (fun _ _ h => h)
        (fun a v _ h => ⟨Memory.wf_store v h.1 (word_lt_capacity a), h.2⟩) hc hs
  · exact control_keeps step_leaves_sequential (fun _ _ h => h) (fun a _ h => sequential_read a h)
      (fun a v _ h => sequential_write a v h) hc hs

/-- Settles O38: a closed state, of which both invariants hold since its trace and its memory are empty. -/
theorem resetIsZeroAndMeetsTheInvariants : Obligations.ResetIsZeroAndMeetsTheInvariants :=
  ⟨rfl, Memory.load_nil, rfl, rfl, ⟨Memory.wf_nil, rfl⟩, coherent_nil, fun _ => rfl⟩

end Sys2Proof.Machine
end

/-! ### Proofs: what the writers leave (41_move_arith.md, 42_shift_logic.md) -/

section
namespace Sys2Proof.Machine

/-! The results of the arithmetic and shift instructions as numbers. -/

section
variable (x y : Word)

/-- The two halves of the product make it up, since it has at most 32 bits (R103). -/
theorem mulProduct_halves :
    (highHalf (mulProduct x y)).toNat * 65536 + (reduce (mulProduct x y)).toNat = x.toNat * y.toNat := by
  have bound : x.toNat * y.toNat < 65536 * 65536 := Nat.mul_lt_mul'' x.isLt y.isLt
  rw [highHalf_mulProduct, mulProduct, BitVec.toNat_ofNat, BitVec.toNat_ofNat]
  omega

theorem divQuotient_toNat : (divQuotient x y).toNat = x.toNat / y.toNat := by
  unfold divQuotient
  split_ifs with h
  · simp [h]
  · exact Nat.mod_eq_of_lt ((Nat.div_le_self _ _).trans_lt x.isLt)

theorem modRemainder_toNat : (modRemainder x y).toNat = if y.toNat = 0 then 0 else x.toNat % y.toNat := by
  unfold modRemainder
  split_ifs with h h' h'
  · rfl
  · exact absurd (by simp [h]) h'
  · exact absurd (BitVec.eq_of_toNat_eq (by simpa using h')) h
  · exact Nat.mod_eq_of_lt ((Nat.mod_le _ _).trans_lt x.isLt)

/-- Scaling by 65536 and reducing drops the quotient and keeps the fraction (R104). -/
theorem divFraction_toNat (hy : y.toNat ≠ 0) : (divFraction x y).toNat = x.toNat % y.toNat * 65536 / y.toNat := by
  have pos : 0 < y.toNat := Nat.pos_of_ne_zero hy
  have fraction : x.toNat % y.toNat * 65536 / y.toNat < 65536 := by
    rw [Nat.div_lt_iff_lt_mul pos, Nat.mul_comm 65536]
    exact Nat.mul_lt_mul_of_pos_right (Nat.mod_lt _ pos) (by decide)
  have parts : x.toNat * 65536 / y.toNat = x.toNat / y.toNat * 65536 + x.toNat % y.toNat * 65536 / y.toNat := by
    calc x.toNat * 65536 / y.toNat
        = (x.toNat % y.toNat * 65536 + y.toNat * (x.toNat / y.toNat * 65536)) / y.toNat := by
          rw [← Nat.mul_assoc, ← Nat.add_mul, Nat.mod_add_div]
      _ = _ := by rw [Nat.add_mul_div_left _ _ pos, Nat.add_comm]
  rw [divFraction_eq, if_neg hy, BitVec.toNat_ofNat, parts, Nat.mul_add_mod', Nat.mod_eq_of_lt fraction]

theorem reduce_shlValue_toNat : (reduce (shlValue x y)).toNat = x.toNat * 2 ^ y.toNat % 65536 := by
  simp [shlValue, Nat.shiftLeft_eq]

theorem highHalf_shlValue_toNat : (highHalf (shlValue x y)).toNat = x.toNat * 2 ^ y.toNat / 65536 % 65536 := by
  rw [highHalf_shlValue, BitVec.toNat_ofNat]

theorem shrResult_toNat : (shrResult x y).toNat = x.toNat / 2 ^ y.toNat := by
  rw [shrResult, BitVec.toNat_ofNat, Nat.shiftRight_eq_div_pow]
  exact Nat.mod_eq_of_lt ((Nat.div_le_self _ _).trans_lt x.isLt)

theorem shrOut_toNat : (shrOut x y).toNat = x.toNat * 65536 / 2 ^ y.toNat % 65536 := by
  rw [shrOut_eq, BitVec.toNat_ofNat]

variable {x y}

/-- From a count of 16 on SHL leaves nothing in the low half (R120, R125). -/
theorem reduce_shlValue_eq_zero (h : 16 ≤ y.toNat) : reduce (shlValue x y) = 0 := by
  refine BitVec.eq_of_toNat_eq ?_
  rw [reduce_shlValue_toNat, ← Nat.add_sub_of_le h, Nat.pow_add, Nat.mul_left_comm]
  exact Nat.mul_mod_right _ _

/-- From a count of 32 on SHL leaves nothing in O either (R120, R125). -/
theorem highHalf_shlValue_eq_zero (h : 32 ≤ y.toNat) : highHalf (shlValue x y) = 0 := by
  refine BitVec.eq_of_toNat_eq ?_
  have factor : x.toNat * 2 ^ y.toNat = 65536 * (65536 * (x.toNat * 2 ^ (y.toNat - 32))) := by
    rw [← Nat.add_sub_of_le h, Nat.pow_add, Nat.add_sub_cancel_left]
    ring
  rw [highHalf_shlValue_toNat, factor, Nat.mul_div_cancel_left _ (by decide)]
  exact Nat.mul_mod_right _ _

theorem toNat_div_two_pow_eq_zero {n : Nat} (h : 16 ≤ n) : x.toNat / 2 ^ n = 0 :=
  Nat.div_eq_of_lt (x.isLt.trans_le (Nat.pow_le_pow_right (by decide) h))

/-- From a count of 16 on SHR leaves nothing in the target (R121, R125). -/
theorem shrResult_eq_zero (h : 16 ≤ y.toNat) : shrResult x y = 0 :=
  BitVec.eq_of_toNat_eq ((shrResult_toNat x y).trans (toNat_div_two_pow_eq_zero h))

/-- SHR's O up to a count of 16: the bits shifted out, left-aligned (R121). -/
theorem shrOut_toNat_of_le (h : y.toNat ≤ 16) : (shrOut x y).toNat = x.toNat * 2 ^ (16 - y.toNat) % 65536 := by
  have scale : 65536 = 2 ^ (16 - y.toNat) * 2 ^ y.toNat := by rw [← Nat.pow_add, Nat.sub_add_cancel h]
  rw [shrOut_toNat, show x.toNat * 65536 = x.toNat * 2 ^ (16 - y.toNat) * 2 ^ y.toNat by rw [Nat.mul_assoc, ← scale],
    Nat.mul_div_cancel _ (Nat.two_pow_pos _)]

/-- SHR's O from a count of 16 on: the value itself shifted by the rest of the count (R121, R125). -/
theorem shrOut_toNat_of_ge (h : 16 ≤ y.toNat) : (shrOut x y).toNat = x.toNat / 2 ^ (y.toNat - 16) := by
  have scale : 2 ^ y.toNat = 2 ^ (y.toNat - 16) * 65536 := by
    rw [show 65536 = 2 ^ 16 from rfl, ← Nat.pow_add, Nat.sub_add_cancel h]
  rw [shrOut_toNat, scale, Nat.mul_div_mul_right _ _ (by decide)]
  exact Nat.mod_eq_of_lt ((Nat.div_le_self _ _).trans_lt x.isLt)

theorem shrOut_eq_zero (h : 32 ≤ y.toNat) : shrOut x y = 0 :=
  BitVec.eq_of_toNat_eq ((shrOut_toNat_of_ge (by omega)).trans (toNat_div_two_pow_eq_zero (by omega)))
end

/-! What a completed writer leaves: the target, O and the frame, for all eleven at once. -/

theorem Instr.length_of_second {i : Instr} {a : Operand} (source : i.second = some a) :
    i.length = 1 + i.first.extra + a.extra := by
  simp [Instr.length, source]

theorem runs_iff {i : Instr} {s : State} :
    runs i s = true ↔ s.skip = false ∧ decodeFault i s = none ∧ writesLiteral i = false := by
  simp [runs, readable_iff, and_assoc]

/-- A writer that runs leaves `targetValue` in its target and in O the late O, or the target's value where O is the target,
or the early O, or what it held (R86, R107). -/
theorem exec_writer_leaves {i : Instr} {a : Operand} {s : State} (source : i.second = some a)
    (writer : i.writesTarget = true) (h : runs i s = true) :
    let x := operandValue i.first 1 s
    let y := sourceValue i s
    ∃ s' : State, exec i s = .next s' ∧ WriterLeaves i.first a (targetValue i x y)
      ((lateO i x y).getD (if i.first = .o then targetValue i x y else (earlyO i x y).getD s.o)) s s' := by
  obtain ⟨skip, range, -⟩ := runs_iff.1 h
  obtain ⟨-, first, -, literal⟩ := runs_writer rfl source writer h
  refine ⟨_, exec_writer range skip writer source literal, ?_⟩
  constructor <;> simp [written_load _ _ _ _ _ first, skip, Instr.length_of_second source]
  by_cases hpc : i.first = .pc <;> simp [hpc]

/-- Settles O13: of the O values of a completed writer SET has neither the early nor the late one. -/
theorem setWritesTheSourceValue : Obligations.SetWritesTheSourceValue := fun _ _ _ h =>
  exec_writer_leaves rfl rfl h

theorem earlyO_add_getD (t a : Operand) (x y o : Word) :
    (earlyO (.add t a) x y).getD o = if x.toNat + y.toNat > 0xFFFF then 1 else o := by
  unfold earlyO
  split_ifs <;> rfl

theorem earlyO_sub_getD (t a : Operand) (x y o : Word) :
    (earlyO (.sub t a) x y).getD o = if x.toNat < y.toNat then 0xFFFF else o := by
  unfold earlyO
  split_ifs <;> rfl

/-- Settles O14: the value written is the sum, the early O the carry. -/
theorem addWritesTheSumAndCarriesIntoO : Obligations.AddWritesTheSumAndCarriesIntoO := by
  intro t a s h x y
  rw [← earlyO_add_getD t a x y s.o]
  exact exec_writer_leaves rfl rfl h

/-- Settles O15: the value written is the difference, the early O the borrow. -/
theorem subWritesTheDifferenceAndBorrowsIntoO : Obligations.SubWritesTheDifferenceAndBorrowsIntoO := by
  intro t a s h x y
  rw [← earlyO_sub_getD t a x y s.o]
  exact exec_writer_leaves rfl rfl h

/-- Settles O16: the two values written are the halves of the product. -/
theorem mulWritesTheProductAcrossTargetAndO : Obligations.MulWritesTheProductAcrossTargetAndO := by
  intro t a s h x y
  obtain ⟨s', done, leaves⟩ := exec_writer_leaves rfl rfl h
  exact ⟨s', _, _, done, leaves, mulProduct_halves x y⟩

/-- Settles O17: the two values written, by a zero divisor and by another. -/
theorem divWritesTheQuotientAndItsFraction : Obligations.DivWritesTheQuotientAndItsFraction := by
  intro t a s h x y
  obtain ⟨s', done, leaves⟩ := exec_writer_leaves rfl rfl h
  refine ⟨s', _, _, done, leaves, fun zero => ?_, fun nonzero => ⟨divQuotient_toNat x y, divFraction_toNat x y nonzero⟩⟩
  have hy : y = 0 := BitVec.eq_of_toNat_eq zero
  exact ⟨if_pos hy, if_pos hy⟩

/-- Settles O18: the value written is the remainder, with neither an early nor a late O. -/
theorem modWritesTheRemainder : Obligations.ModWritesTheRemainder := by
  intro t a s h x y
  obtain ⟨s', done, leaves⟩ := exec_writer_leaves rfl rfl h
  exact ⟨s', _, done, leaves, modRemainder_toNat x y⟩

/-- Settles O19: the halves of the shifted value by the count. -/
theorem shlShiftsIntoTargetAndO : Obligations.ShlShiftsIntoTargetAndO := by
  intro t a s h x n
  obtain ⟨s', done, leaves⟩ := exec_writer_leaves rfl rfl h
  exact ⟨s', _, _, done, leaves, fun _ => reduce_shlValue_toNat _ _, reduce_shlValue_eq_zero,
    fun _ => highHalf_shlValue_toNat _ _, highHalf_shlValue_eq_zero⟩

/-- Settles O20: the shifted value and the bits shifted out by the count. -/
theorem shrShiftsIntoTargetAndO : Obligations.ShrShiftsIntoTargetAndO := by
  intro t a s h x n
  obtain ⟨s', done, leaves⟩ := exec_writer_leaves rfl rfl h
  exact ⟨s', _, _, done, leaves, shrResult_toNat _ _, shrResult_eq_zero, shrOut_toNat_of_le, shrOut_toNat_of_ge,
    shrOut_eq_zero⟩

/-- Settles O21: each of the three runs, and its result's bits are the operation on the operands' bits. -/
theorem bitwiseInstructionsCombineBits : Obligations.BitwiseInstructionsCombineBits := by
  intro t a s skip literal x y
  have runs {i : Instr} (first : i.first = t) (range : readable i s = true) : runs i s = true :=
    runs_iff.2 ⟨skip, readable_iff.1 range, by rw [writesLiteral, first, literal, Bool.and_false]⟩
  refine ⟨fun range => ?_, fun range => ?_, fun range => ?_⟩ <;>
    obtain ⟨s', done, leaves⟩ := exec_writer_leaves rfl rfl (runs rfl range)
  · exact ⟨s', _, done, leaves, fun _ => BitVec.getLsbD_and⟩
  · exact ⟨s', _, done, leaves, fun _ => BitVec.getLsbD_or⟩
  · exact ⟨s', _, done, leaves, fun _ => BitVec.getLsbD_xor⟩

end Sys2Proof.Machine
end

/-! ### Proofs: conditional skip (43_conditional_skip.md, 40_step_and_operands.md section 3) -/

section
namespace Sys2Proof.Machine

section
variable {i : Instr} {a : Operand} {s s' : State}

theorem not_readable_iff : readable i s = false ↔ ∃ n, decodeFault i s = some n := by
  simp [readable, Option.isNone_eq_false_iff, Option.isSome_iff_exists]

/-- Only a conditional has a condition (43_conditional_skip.md R141 to R144). -/
theorem kind_of_conditionFails {x y : Word} (h : conditionFails i x y) :
    i.writesTarget = false ∧ undefinedOpcode i = false ∧ i.isJsr = false := by
  cases i with
  | ife | ifn | ifg | ifb => exact ⟨rfl, rfl, rfl⟩
  | set | add | sub | mul | div | mod | shl | shr | and | bor | xor => exact h.elim
  | jsr | undef00 | undef02to03 | undef04to07 | undef08to0f | undef10to1f | undef20to3f => exact h.elim

theorem exec_conditional_leaves (skip : s.skip = false) (range : readable i s = true) (writer : i.writesTarget = false)
    (source : i.second = some a) {b : Bool}
    (condition : b = true ↔ conditionFails i (operandValue i.first 1 s) (sourceValue i s)) :
    ∃ s' : State, exec i s = .next s' ∧ ConditionalLeaves i.first a b s s' := by
  refine ⟨_, exec_conditional (readable_iff.1 range) skip writer source condition, ?_⟩
  constructor <;> simp [Instr.length_of_second source]

/-- Settles O22: the four by their conditions, and out of range as any instruction. -/
theorem conditionalsSkipWhenFalse : Obligations.ConditionalsSkipWhenFalse := by
  intro t a s skip x y
  refine ⟨fun range => ⟨?_, ?_, ?_, ?_⟩, fun range i hi => ?_⟩
  · exact exec_conditional_leaves (i := .ife t a) skip range rfl rfl decide_eq_true_iff
  · exact exec_conditional_leaves (i := .ifn t a) skip range rfl rfl decide_eq_true_iff
  · exact exec_conditional_leaves (i := .ifg t a) skip range rfl rfl decide_eq_true_iff
  · exact exec_conditional_leaves (i := .ifb t a) skip range rfl rfl decide_eq_true_iff
  · obtain ⟨n, fault⟩ := not_readable_iff.1 range
    have same : decodeFault i s = decodeFault (.ife t a) s := by
      obtain rfl | rfl | rfl | rfl := hi <;> rfl
    exact ⟨n, _, exec_of_decodeFault (same.trans fault)⟩

/-- Settles O23: in range by the equation of a skipped instruction, out of range as any instruction. -/
theorem pendingSkipPassesOverTheInstruction : Obligations.PendingSkipPassesOverTheInstruction := by
  refine fun i s pending => ⟨fun range => exec_skipped (readable_iff.1 range) pending, fun range => ?_⟩
  obtain ⟨n, fault⟩ := not_readable_iff.1 range
  exact ⟨n, _, exec_of_decodeFault fault, pending⟩

/-- The skip flag a completed instruction leaves (10_state.md R18). -/
theorem exec_skip_iff (h : exec i s = .next s') :
    s'.skip = true ↔ s.skip = false ∧ conditionFails i (operandValue i.first 1 s) (sourceValue i s) := by
  have unconditional (other : i.writesTarget = true ∨ undefinedOpcode i = true ∨ i.isJsr = true) :
      ¬ conditionFails i (operandValue i.first 1 s) (sourceValue i s) := by
    intro fails
    obtain ⟨h1, h2, h3⟩ := kind_of_conditionFails fails
    simp [h1, h2, h3] at other
  cases ending_of_exec h with
  | skipped _ pending => simp [pending]
  | wrote _ skip writer => simp [skip, unconditional (.inl writer)]
  | compared _ skip _ _ a _ b condition => simp [skip, condition]
  | undefined _ _ opcode => simp [unconditional (.inr (.inl opcode))]
  | called _ skip a jsr => simp [skip, unconditional (.inr (.inr (jsr ▸ rfl)))]

/-- An instruction that completes had its operands in range. -/
theorem decodeFault_of_exec_next (h : exec i s = .next s') : decodeFault i s = none := by
  cases hr : decodeFault i s with
  | none => rfl
  | some n => exact nomatch (exec_of_decodeFault hr).symm.trans h

theorem step_fault_skip {f : Fault} (h : step s = .fault f) : f.left.skip = s.skip := by
  cases ending_of_step h with
  | outOfRange => rfl
  | literalTarget => simp

/-- Settles O24: the flag by the endings; with one pending the instruction is passed over. -/
theorem onlyFalseConditionalsSetSkip : Obligations.OnlyFalseConditionalsSetSkip := by
  refine ⟨fun i s s' h => ⟨exec_skip_iff h, fun pending => ?_⟩, fun _ _ => step_fault_skip, memReset_skip⟩
  cases (exec_skipped (decodeFault_of_exec_next h) pending).symm.trans h
  exact ⟨rfl, rfl, rfl, rfl, rfl⟩

end

end Sys2Proof.Machine
end

/-! ### Proofs: JSR, undefined opcodes, control transfer (44_nonbasic_jsr.md) -/

section
namespace Sys2Proof.Machine

/-- Settles O25: the fields of the state JSR leaves, the memory read back after its push. -/
theorem jsrPushesTheReturnAddressAndJumps : Obligations.JsrPushesTheReturnAddressAndJumps := by
  intro a s skip range
  refine ⟨_, exec_jsr (readable_iff.1 range) skip, rfl, rfl, skip, rfl, rfl, fun n => ?_, rfl, rfl, rfl⟩
  exact Memory.load_store s.mem _ n _

/-- Settles O26, by the equation of an undefined opcode. -/
theorem undefinedOpcodesAreNoOps : Obligations.UndefinedOpcodesAreNoOps := fun _ _ opcode _ range =>
  exec_undefined (readable_iff.1 range) opcode

/-- `SET PC, POP` runs in every state without a pending skip: SP is a Word, so its word is in range. -/
theorem runs_set_pc_pop {s : State} (skip : s.skip = false) : runs (.set .pc .pop) s = true := by
  have range : operandFault .pop 1 s = none := if_neg (Nat.not_le.2 (word_lt_capacity s.sp))
  exact runs_iff.2 ⟨skip, range, rfl⟩

/-- Settles O27: the call stored the return address at its SP, and the return reads that word into PC. -/
theorem returnResumesAfterTheCall : Obligations.ReturnResumesAfterTheCall := by
  intro a s s1 s2 skip called skip2 sameSp sameWord
  obtain ⟨s1', called', -, -, -, sp1, -, load1, -⟩ :=
    jsrPushesTheReturnAddressAndJumps a s skip (readable_iff.2 (decodeFault_of_exec_next called))
  obtain rfl : s1' = s1 := by simpa using called'.symm.trans called
  obtain ⟨s3, returned, leaves⟩ := setWritesTheSourceValue .pc .pop s2 (runs_set_pc_pop skip2)
  refine ⟨s3, returned, ?_, ?_⟩
  · calc s3.pc = s2.mem.load s2.sp.toNat := leaves.pc
      _ = s1'.mem.load s1'.sp.toNat := sameWord
      _ = _ := by rw [load1, sp1, if_pos rfl]
  · rw [leaves.sp, sameSp, sp1]
    simp [stackDelta]

/-- Settles O28, by the endings: only a writer with target PC and JSR say that they wrote PC. -/
theorem pcAdvancesByTheLengthUnlessWritten : Obligations.PcAdvancesByTheLengthUnlessWritten := by
  intro s s' h unwritten
  cases ending_of_step h with
  | skipped | undefined | compared => rfl
  | wrote _ skip writer =>
    have other : s.current.first ≠ .pc := fun hpc => by
      simp [writesPc, show s.skip = false from skip, writer, hpc] at unwritten
    simp [other]
  | called _ skip a jsr => simp [writesPc, show s.skip = false from skip, jsr, Instr.isJsr] at unwritten

end Sys2Proof.Machine
end

/-! ### Proofs: the step as a whole (40_step_and_operands.md section 4, 10_state.md section 5) -/

section
namespace Sys2Proof.Machine

section
variable {i : Instr} {s s' : State}

/-! The counts. -/

theorem exec_counts (h : exec i s = .next s') : s'.steps = s.steps + 1 ∧ s'.notified = s.notified + 1 := by
  cases ending_of_exec h <;> simp

theorem exec_fault_counts {f : Fault} (h : exec i s = .fault f) :
    f.left.steps = s.steps ∧ f.left.notified = s.notified := by
  cases ending_of_exec h <;> simp

/-- Settles O31, by the endings. -/
theorem completedStepsAreCountedAndNotified : Obligations.CompletedStepsAreCountedAndNotified :=
  ⟨fun s _ h => exec_counts (s := s.fetched) (step_eq_exec_current s ▸ h),
    fun s _ h => exec_fault_counts (s := s.fetched) (step_eq_exec_current s ▸ h)⟩

/-! The accesses. -/

theorem nextWordReads_length (op : Operand) (len : Nat) (s : State) : (nextWordReads op len s).length ≤ 1 := by
  unfold nextWordReads
  split <;> simp

theorem operandReads_length (op : Operand) (len : Nat) (s : State) : (operandReads op len s).length ≤ 2 := by
  have next := nextWordReads_length op len s
  unfold operandReads
  rw [List.length_append]
  cases operandAddress op len s with
  | none => simp only [List.length_nil]; omega
  | some n => simp only [List.length_singleton]; omega

theorem instrReads_length (i : Instr) (s : State) : (instrReads i s).length ≤ 4 := by
  have first := operandReads_length i.first 1 s
  unfold instrReads
  rw [List.length_append]
  cases i.second with
  | none => simp only [List.length_nil]; omega
  | some a =>
    have second := operandReads_length a (1 + i.first.extra) s
    simp only
    omega

theorem isJsr_of_writesTarget (h : i.writesTarget = true) : i.isJsr = false := by
  revert h
  cases i <;> simp [Instr.writesTarget, Instr.isJsr]

theorem kind_of_undefinedOpcode (h : undefinedOpcode i = true) : i.isJsr = false ∧ i.writesTarget = false := by
  revert h
  cases i <;> simp [Instr.writesTarget, Instr.isJsr, undefinedOpcode]

theorem operandFault_first (range : decodeFault i s = none) : operandFault i.first 1 s = none := by
  unfold decodeFault at range
  split at range
  · cases range
  · assumption

/-- Settles O30: every ending publishes the fetch and the operands' reads; a writer's write is of what its target then
holds, JSR's of the return address at the new SP. -/
theorem stepAccessesMemoryInOrder : Obligations.StepAccessesMemoryInOrder := by
  intro s s' h
  refine ⟨?_, instrReads_length _ s⟩
  cases ending_of_step h with
  | skipped _ pending => simp [State.fetched_trace, show s.skip = true from pending]
  | undefined _ skip opcode =>
    simp [State.fetched_trace, show s.skip = false from skip, kind_of_undefinedOpcode opcode]
  | compared _ skip writer jsr => simp [State.fetched_trace, show s.skip = false from skip, writer, jsr]
  | called _ skip a jsr =>
    have isJsr : s.current.isJsr = true := by rw [jsr]; rfl
    simp [State.fetched_trace, show s.skip = false from skip, isJsr]
  | wrote range skip writer _ a _ v =>
    have load := written_load s.current.first 1 v s.fetched (s.fetched.beforeWrite s.current a) (operandFault_first range)
    simp only [operandAddress_fetched] at load
    simp only [finish_trace, State.optO_trace, written_trace, operandAddress_fetched, State.beforeWrite_trace,
      State.fetched_trace, instrReads_fetched, show s.skip = false from skip, writer, isJsr_of_writesTarget writer,
      finish_mem, State.optO_mem]
    cases target : operandAddress s.current.first 1 s with
    | none => simp
    | some n => simp [load, target]

end

end Sys2Proof.Machine
end

/-! ### Proofs: what an instruction depends on (10_state.md sections 5 and 8) -/

section
namespace Sys2Proof.Machine

/-- The two states agree on what operand resolution reads, but for the value of O. -/
def State.sameOperands (s t : State) : Prop := s.regs = t.regs ∧ s.sp = t.sp ∧ s.pc = t.pc ∧ s.mem = t.mem

section
variable {s t : State} (op : Operand) (len : Nat) (i : Instr)

/-- The range of an operand does not depend on SP either: an operand through SP is always in range (60_exceptions.md
R181). -/
theorem operandFault_congr (hregs : s.regs = t.regs) (hpc : s.pc = t.pc) (hmem : s.mem = t.mem) :
    operandFault op len s = operandFault op len t := by
  cases op with
  | reg | ind | idx | sp | pc | o | abs | lit | small =>
    simp only [operandFault, operandAddress, State.nextWordAt, hregs, hpc, hmem]
  | pop | peek =>
    simp [operandFault, operandAddress, Operand.extra, Nat.not_le.2 (word_lt_capacity s.sp),
      Nat.not_le.2 (word_lt_capacity t.sp)]
  | push =>
    simp only [operandFault, operandAddress, Operand.extra, if_neg (Nat.not_le.2 (word_lt_capacity (s.sp - 1))),
      if_neg (Nat.not_le.2 (word_lt_capacity (t.sp - 1))), Nat.zero_ne_one, false_and, if_false]

theorem decodeFault_congr (hregs : s.regs = t.regs) (hpc : s.pc = t.pc) (hmem : s.mem = t.mem) :
    decodeFault i s = decodeFault i t := by
  simp only [decodeFault, operandFault_congr _ _ hregs hpc hmem]

theorem State.current_congr (hpc : s.pc = t.pc) (hmem : s.mem = t.mem) : s.current = t.current := by
  simp only [current, hpc, hmem]

variable (h : s.sameOperands t)
include h

theorem operandAddress_congr : operandAddress op len s = operandAddress op len t := by
  obtain ⟨hregs, hsp, hpc, hmem⟩ := h
  simp only [operandAddress, State.nextWordAt, hregs, hsp, hpc, hmem]

theorem operandLoc_congr : operandLoc op len s = operandLoc op len t := by
  simp only [operandLoc, operandAddress_congr op len h]

theorem nextWordReads_congr : nextWordReads op len s = nextWordReads op len t := by
  obtain ⟨-, -, hpc, hmem⟩ := h
  simp only [nextWordReads, State.nextWordAt, hpc, hmem]

theorem operandReads_congr : operandReads op len s = operandReads op len t := by
  obtain ⟨-, -, -, hmem⟩ := id h
  simp only [operandReads, operandAddress_congr op len h, nextWordReads_congr op len h, hmem]

theorem instrReads_congr : instrReads i s = instrReads i t := by
  simp only [instrReads, operandReads_congr _ _ h]

/-- Only the operand O has O's value. -/
theorem operandValue_congr (ho : op = .o → s.o = t.o) : operandValue op len s = operandValue op len t := by
  have address := operandAddress_congr op len h
  obtain ⟨hregs, hsp, hpc, hmem⟩ := h
  cases op with
  | o => exact ho rfl
  | reg | sp | pc | lit | small => simp only [operandValue, State.nextWordAt, hregs, hsp, hpc, hmem]
  | ind | idx | pop | peek | push | abs => simp only [operandValue, address, hmem]

theorem sourceValue_congr (h1 : i.first = .o → s.o = t.o) (h2 : i.second = some .o → s.o = t.o) :
    sourceValue i s = sourceValue i t := by
  unfold sourceValue
  cases source : i.second with
  | none => exact operandValue_congr i.first 1 h h1
  | some a => exact operandValue_congr a _ h fun ha => h2 (ha ▸ source)
end

/-- What one step does alike from `s` to `s'` and from `t` to `t'`: all that a program sees but O ends the same, O too if it
began the same, and the events published are the same. -/
structure MovesAlike (s s' t t' : State) : Prop where
  operands : s'.sameOperands t'
  skip : s'.skip = t'.skip
  o : s.o = t.o → s'.o = t'.o
  trace : ∃ es : List Event, s'.trace = s.trace ++ es ∧ t'.trace = t.trace ++ es

/-! One rule per state operation: done on both sides, it keeps them alike. -/

namespace MovesAlike

variable {s s' t t' : State}

theorem start (operands : s.sameOperands t) (skip : s.skip = t.skip) : MovesAlike s s t t :=
  ⟨operands, skip, id, [], (List.append_nil _).symm, (List.append_nil _).symm⟩

variable (h : MovesAlike s s' t t')
include h

theorem publishAll (es : List Event) : MovesAlike s (s'.publishAll es) t (t'.publishAll es) := by
  obtain ⟨operands, skip, o, fs, hs, ht⟩ := h
  exact ⟨operands, skip, o, fs ++ es, by simp [hs], by simp [ht]⟩

theorem setReg (r : Reg) (v : Word) : MovesAlike s (s'.setReg r v) t (t'.setReg r v) := by
  obtain ⟨⟨hregs, rest⟩, skip, o, trace⟩ := h
  exact ⟨⟨congrArg (·.set r v) hregs, rest⟩, skip, o, trace⟩

theorem setSp (v : Word) : MovesAlike s (s'.setSp v) t (t'.setSp v) := by
  obtain ⟨⟨hregs, -, rest⟩, skip, o, trace⟩ := h
  exact ⟨⟨hregs, rfl, rest⟩, skip, o, trace⟩

theorem setPc (v : Word) : MovesAlike s (s'.setPc v) t (t'.setPc v) := by
  obtain ⟨⟨hregs, hsp, -, hmem⟩, skip, o, trace⟩ := h
  exact ⟨⟨hregs, hsp, rfl, hmem⟩, skip, o, trace⟩

theorem setO (v : Word) : MovesAlike s (s'.setO v) t (t'.setO v) := by
  obtain ⟨operands, skip, -, trace⟩ := h
  exact ⟨operands, skip, fun _ => rfl, trace⟩

theorem optO (o : Option Word) : MovesAlike s (s'.optO o) t (t'.optO o) := by
  cases o with
  | none => exact h
  | some v => exact h.setO v

theorem setSkip (b : Bool) : MovesAlike s (s'.setSkip b) t (t'.setSkip b) := by
  obtain ⟨operands, -, o, trace⟩ := h
  exact ⟨operands, rfl, o, trace⟩

theorem store (a v : Word) :
    MovesAlike s ((s'.poke a.toNat v).publish (.wr a v)) t ((t'.poke a.toNat v).publish (.wr a v)) := by
  obtain ⟨⟨hregs, hsp, hpc, hmem⟩, skip, o, trace⟩ := h
  have stored : MovesAlike s (s'.poke a.toNat v) t (t'.poke a.toNat v) :=
    ⟨⟨hregs, hsp, hpc, congrArg (·.store a.toNat v) hmem⟩, skip, o, trace⟩
  exact stored.publishAll [.wr a v]

theorem finish (len : Nat) (pcSet : Bool) : MovesAlike s (finish len pcSet s') t (finish len pcSet t') := by
  obtain ⟨⟨hregs, hsp, hpc, hmem⟩, skip, o, trace⟩ := h
  exact ⟨⟨hregs, hsp, by simp only [finish_pc, hpc], hmem⟩, skip, o, trace⟩

theorem written {op : Operand} {len : Nat} {s0 t0 : State} (v : Word) (h0 : s0.sameOperands t0) :
    MovesAlike s (written op len v s0 s') t (written op len v t0 t') := by
  unfold Machine.written
  rw [operandLoc_congr op len h0]
  cases operandLoc op len t0 with
  | reg r => exact h.setReg r v
  | sp => exact h.setSp v
  | pc => exact h.setPc v
  | o => exact h.setO v
  | mem a => exact h.store a v
  | none => exact h

omit h in
theorem decoded (same : s.sameOperands t) (skip : s.skip = t.skip) (i : Instr) (a : Operand) :
    MovesAlike s (s.decoded i a) t (t.decoded i a) := by
  obtain ⟨-, hsp, -, -⟩ := id same
  rw [State.decoded, State.decoded, instrReads_congr i same, hsp]
  exact ((start same skip).publishAll _).setSp _

end MovesAlike

theorem passedOver_eq_finish (i : Instr) (s : State) :
    passedOver i s = finish i.length false ((s.publishAll (instrReads i s)).setSkip false) := rfl

section
variable {i : Instr} {s t : State}

/-- An instruction that completes in one of two states with the same operands, operand values and skip flag completes in the
other too, and moves them alike. -/
theorem exec_next_alike {s' : State} (same : s.sameOperands t) (hskip : s.skip = t.skip)
    (hx : operandValue i.first 1 s = operandValue i.first 1 t) (hy : sourceValue i s = sourceValue i t)
    (h : exec i s = .next s') : ∃ t', exec i t = .next t' ∧ MovesAlike s s' t t' := by
  obtain ⟨hregs, hsp, hpc, hmem⟩ := id same
  have reads := instrReads_congr i same
  have range : decodeFault i t = none :=
    (decodeFault_congr i hregs hpc hmem).symm.trans (decodeFault_of_exec_next h)
  have readsDone := (MovesAlike.start same hskip).publishAll (instrReads i t)
  have passed : MovesAlike s (passedOver i s) t (passedOver i t) := by
    rw [passedOver_eq_finish, passedOver_eq_finish, reads]
    exact (readsDone.setSkip false).finish _ _
  cases ending_of_exec h with
  | skipped _ pending => exact ⟨_, exec_skipped range (hskip ▸ pending), passed⟩
  | undefined _ _ opcode => exact ⟨_, exec_undefined range opcode, passed⟩
  | compared _ skip writer _ a source b condition =>
    rw [hx, hy] at condition
    exact ⟨_, exec_conditional range (hskip ▸ skip) writer source condition,
      ((MovesAlike.decoded same hskip i a).setSkip b).finish _ _⟩
  | called _ skip a jsr =>
    subst jsr
    refine ⟨_, exec_jsr range (hskip ▸ skip), ?_⟩
    rw [reads, hsp, hpc, show operandValue a 1 s = operandValue a 1 t from hx]
    exact (((readsDone.setSp _).store _ _).setPc _).finish _ _
  | wrote range' skip writer literal a source =>
    have e := Host.Outcome.next.inj (h.symm.trans (exec_writer range' skip writer source literal))
    rw [e, hx, hy]
    refine ⟨_, exec_writer range (hskip ▸ skip) writer source literal, ?_⟩
    have before : MovesAlike s (s.beforeWrite i a) t (t.beforeWrite i a) := by
      rw [State.beforeWrite, State.beforeWrite, hx, hy]
      exact (MovesAlike.decoded same hskip i a).optO _
    exact ((before.written _ same).optO _).finish _ _

/-- A fault in one of two states that agree is a fault in the other, with the same information (60_exceptions.md R184). -/
theorem exec_fault_alike {f : Fault} (same : s.sameOperands t) (hskip : s.skip = t.skip)
    (h : exec i s = .fault f) : ∃ g, exec i t = .fault g ∧ sameFault f g := by
  obtain ⟨hregs, -, hpc, hmem⟩ := same
  have range : decodeFault i s = decodeFault i t := decodeFault_congr i hregs hpc hmem
  cases ending_of_exec h with
  | outOfRange n fault => exact ⟨_, exec_of_decodeFault (range ▸ fault), rfl⟩
  | literalTarget inRange skip writer literal a source =>
    exact ⟨_, exec_literalTarget (range ▸ inRange) (hskip ▸ skip) writer literal source, rfl⟩

end

/-- Settles O42: the fetch is of the same word, and the instruction moves both machines alike. -/
theorem programsCannotSeeTheHostsState : Obligations.ProgramsCannotSeeTheHostsState := by
  rintro s t ⟨hregs, hsp, hpc, ho, hskip, hmem⟩
  have same : s.sameOperands t := ⟨hregs, hsp, hpc, hmem⟩
  have fetched : s.fetched.sameOperands t.fetched := same
  simp only [step_eq_exec_current, ← State.current_congr hpc hmem]
  refine ⟨fun s' h => ?_, fun f h => exec_fault_alike fetched hskip h⟩
  obtain ⟨t', done, alike⟩ := exec_next_alike fetched hskip (operandValue_congr _ _ fetched fun _ => ho)
    (sourceValue_congr _ fetched (fun _ => ho) fun _ => ho) h
  obtain ⟨⟨hregs', hsp', hpc', hmem'⟩, skip', o', -⟩ := alike
  exact ⟨t', done, hregs', hsp', hpc', o' ho, skip', hmem'⟩

/-- States are equal field by field. -/
theorem State.eq_of_fields {s t : State} (regs : s.regs = t.regs) (sp : s.sp = t.sp) (pc : s.pc = t.pc) (o : s.o = t.o)
    (skip : s.skip = t.skip) (steps : s.steps = t.steps) (mem : s.mem = t.mem) (trace : s.trace = t.trace)
    (notified : s.notified = t.notified) (running : s.running = t.running) : s = t := by
  cases s
  cases t
  simp_all

section
variable {i : Instr} {s s' : State}

/-- Only a writer writes O beside its target (10_state.md R17). -/
theorem implicitO_of_not_writer (h : i.writesTarget = false) (x y o : Word) : implicitO i x y o = o := by
  cases i with
  | set | add | sub | mul | div | mod | shl | shr | and | bor | xor => cases h
  | ife | ifn | ifg | ifb | jsr | undef00 | undef02to03 | undef04to07 | undef08to0f | undef10to1f | undef20to3f => rfl

/-- O after a completed instruction whose target is not O (10_state.md R17). -/
theorem exec_o (h : exec i s = .next s') (target : i.writesTarget = true → i.first ≠ .o) :
    s'.o = if s.skip then s.o else implicitO i (operandValue i.first 1 s) (sourceValue i s) s.o := by
  cases ending_of_exec h with
  | skipped _ pending => simp [pending]
  | undefined _ _ opcode => simp [implicitO_of_not_writer (kind_of_undefinedOpcode opcode).2]
  | compared _ skip writer => simp [skip, implicitO_of_not_writer writer]
  | called _ skip a jsr => simp [skip, implicitO_of_not_writer (show i.writesTarget = false from jsr ▸ rfl)]
  | wrote _ skip writer _ a _ v late o => simp [skip, target writer, ← o]

end

/-- Settles O32: the table by the endings, the code 0x1d by resolution and the write contract, and the independence of O by
moving the state with another O alike. -/
theorem onlyTheListedInstructionsWriteO : Obligations.OnlyTheListedInstructionsWriteO := by
  refine ⟨fun _ _ _ => exec_o, fun _ _ => rfl, fun _ v s => writeOperand_of_loc_o v s, ?_⟩
  intro i s s' v first second h
  have same : s.sameOperands (s.setO v) := ⟨rfl, rfl, rfl, rfl⟩
  obtain ⟨t', done, operands, skip, -, es, hs, ht⟩ := exec_next_alike same rfl
    (operandValue_congr _ _ same fun ho => absurd ho first)
    (sourceValue_congr _ same (fun ho => absurd ho first) fun ho => absurd ho second) h
  obtain ⟨steps, notified⟩ := exec_counts h
  obtain ⟨steps', notified'⟩ := exec_counts done
  obtain ⟨hregs, hsp, hpc, hmem⟩ := operands
  refine ⟨t', done, ?_⟩
  exact State.eq_of_fields hregs.symm hsp.symm hpc.symm rfl skip.symm (steps'.trans steps.symm) hmem.symm
    (ht.trans hs.symm) (notified'.trans notified.symm) ((exec_running done).trans (exec_running h).symm)

end Sys2Proof.Machine
end

/-! ### Proofs: faults (60_exceptions.md) -/

section
namespace Sys2Proof.Machine

theorem isLiteral_iff_code (op : Operand) : op.isLiteral = true ↔ 0x1f ≤ op.code.toNat := by
  have all : ∀ c : BitVec 6, (Operand.ofCode c).isLiteral = true ↔ 0x1f ≤ c.toNat := by decide
  simpa using all op.code

/-- Settles O33: InvalidTarget is the one ending of a writer with a literal target. -/
theorem invalidTargetExactlyForExecutedLiteralTargets : Obligations.InvalidTargetExactlyForExecutedLiteralTargets := by
  refine fun i s c => ⟨fun ⟨left, h⟩ => ?_, fun ⟨writer, code, literal, skip, range⟩ => ?_⟩
  · cases ending_of_exec h with
    | literalTarget range skip writer literal =>
      exact ⟨writer, rfl, (isLiteral_iff_code _).1 literal, skip, readable_iff.2 range⟩
  · subst code
    obtain ⟨a, source⟩ := Instr.exists_second_of_writesTarget writer
    exact ⟨_, exec_literalTarget (readable_iff.1 range) skip writer ((isLiteral_iff_code _).2 literal) source⟩

/-! The two faults of a step, with the state each leaves (R184). -/

/-- What an out-of-range step publishes: the fetch, then the operand reads before the fault. -/
def State.abortedReads (s : State) : List Event :=
  .rd s.pc (s.mem.load s.pc.toNat) :: readsBeforeFault s.current s

theorem fetched_publishAll_readsBeforeFault (s : State) :
    s.fetched.publishAll (readsBeforeFault s.current s) = s.publishAll s.abortedReads :=
  publishAll_append s [_] _

section
variable {s : State}

theorem step_of_decodeFault {n : Nat} (h : decodeFault s.current s = some n) :
    step s = .fault (.outOfRange n (s.publishAll s.abortedReads)) := by
  rw [step_eq_exec_current, exec_of_decodeFault ((decodeFault_fetched _ s).trans h), readsBeforeFault_fetched,
    fetched_publishAll_readsBeforeFault]

theorem step_of_literalTarget {a : Operand} (range : decodeFault s.current s = none) (skip : s.skip = false)
    (writer : s.current.writesTarget = true) (literal : s.current.first.isLiteral = true)
    (source : s.current.second = some a) :
    step s = .fault (.invalidTarget s.current.first.code (s.fetched.beforeWrite s.current a)) := by
  rw [step_eq_exec_current]
  exact exec_literalTarget ((decodeFault_fetched _ s).trans range) skip writer literal source

theorem decodeFault_of_first {i : Instr} {n : Nat} (h : operandFault i.first 1 s = some n) :
    decodeFault i s = some n := by
  rw [decodeFault, h]

theorem decodeFault_of_second {i : Instr} {a : Operand} (first : operandFault i.first 1 s = none)
    (source : i.second = some a) : decodeFault i s = operandFault a (1 + i.first.extra) s := by
  simp only [decodeFault, first, source]

/-- Settles O34: the first fault is the decode fault, target before source, and then the literal target. -/
theorem stepRaisesTheFirstFault : Obligations.StepRaisesTheFirstFault := by
  refine ⟨fun s n first => ⟨_, step_of_decodeFault (decodeFault_of_first first)⟩,
    fun s a n first source second => ⟨_, step_of_decodeFault ((decodeFault_of_second first source).trans second)⟩,
    fun s range skip writes => ?_, fun a v s large _ => ?_⟩
  · obtain ⟨writer, literal⟩ := (Bool.and_eq_true _ _).mp writes
    obtain ⟨a, source⟩ := Instr.exists_second_of_writesTarget writer
    exact ⟨_, step_of_literalTarget range skip writer literal source⟩
  · rw [control_write, memWrite_valueTooLarge large]
    rfl

/-- An instruction completes exactly when its operands are in range and it is skipped or writes no literal: each ending that
completes meets the guard, neither fault does. -/
theorem exec_next_iff {i : Instr} :
    (∃ s' : State, exec i s = .next s') ↔ decodeFault i s = none ∧ (s.skip = true ∨ writesLiteral i = false) := by
  generalize h : exec i s = r
  cases ending_of_exec h with
  | outOfRange n fault => simp [fault]
  | literalTarget _ skip writer literal => simp [skip, writesLiteral, writer, literal]
  | skipped range pending => simp [range, pending]
  | wrote range _ _ literal => simp [range, writesLiteral, literal]
  | compared range _ writer => simp [range, writesLiteral, writer]
  | undefined range _ opcode => simp [range, writesLiteral, kind_of_undefinedOpcode opcode]
  | called range _ a jsr => simp [range, writesLiteral, show i.writesTarget = false from jsr ▸ rfl]

theorem step_next_iff_safe : (∃ s' : State, step s = .next s') ↔ s.safe = true := by
  simp [step_eq_exec_current, exec_next_iff, State.safe, readable_iff]

/-- No ending is a refusal: every instruction has its meaning (30_encoding.md R62). -/
theorem step_ne_refused (r : Refusal) : step s ≠ .refused r := fun h => nomatch ending_of_step h

/-- Settles O35: by the endings, of which the two that fault are OutOfRange and InvalidTarget. -/
theorem stepCompletesExactlyWhenSafe : Obligations.StepCompletesExactlyWhenSafe := fun s =>
  ⟨step_next_iff_safe, step_ne_refused, step_ne_valueTooLarge s⟩

theorem stackDelta_of_isLiteral {op : Operand} (h : op.isLiteral = true) : stackDelta op = 0 := by
  cases op with
  | lit | small => rfl
  | reg | ind | idx | pop | peek | push | sp | pc | o | abs => cases h

/-- The state an InvalidTarget leaves, as R184's table has it: the target, a literal, moves no SP. -/
theorem beforeWrite_of_literal {i : Instr} (literal : i.first.isLiteral = true) (a : Operand) :
    s.beforeWrite i a = { s.publishAll (instrReads i s) with
      sp := s.sp + stackDelta a
      o := (earlyO i (operandValue i.first 1 s) (sourceValue i s)).getD s.o } := by
  rw [State.beforeWrite, State.decoded, stackDelta_of_isLiteral literal, show s.sp + 0 = s.sp from add_zero _]
  cases earlyO i (operandValue i.first 1 s) (sourceValue i s) <;> rfl

/-- Settles O36: of the endings that fault, each leaves its row of R184's table. -/
theorem abortedStepLeavesThisState : Obligations.AbortedStepLeavesThisState := by
  intro s f h
  cases ending_of_step h with
  | outOfRange n fault =>
    refine ⟨fun m left e => ?_, nofun⟩
    obtain ⟨-, rfl⟩ := Fault.outOfRange.inj e
    rw [readsBeforeFault_fetched]
  | literalTarget _ _ _ literal a source =>
    refine ⟨nofun, fun c left e => ⟨a, source, ?_⟩⟩
    obtain ⟨-, rfl⟩ := Fault.invalidTarget.inj e
    rw [beforeWrite_of_literal literal]
    simp only [instrReads_fetched, operandValue_fetched, sourceValue_fetched, State.fetched_sp, State.fetched_o]

/-- Settles O37: PC, the registers and the memory are as they were, so the same instruction meets the same fault. -/
theorem faultRecursWhenSteppedAgain : Obligations.FaultRecursWhenSteppedAgain := by
  intro s f h
  cases ending_of_step h with
  | outOfRange n fault =>
    rw [readsBeforeFault_fetched, fetched_publishAll_readsBeforeFault]
    have again : decodeFault s.current (s.publishAll s.abortedReads) = some n := by
      rwa [decodeFault_publishAll, ← decodeFault_fetched]
    refine ⟨_, step_of_decodeFault again, rfl, rfl, fun m left e => ⟨rfl, rfl, s.abortedReads, rfl, ?_⟩⟩
    have reads : (s.publishAll s.abortedReads).abortedReads = s.abortedReads :=
      congrArg (_ :: ·) (readsBeforeFault_publishAll s.current s _)
    exact congrArg (s.publishAll s.abortedReads).publishAll reads
  | literalTarget range skip writer literal a source =>
    have current : (s.fetched.beforeWrite s.current a).current = s.current := State.current_congr (by simp) (by simp)
    have again : decodeFault s.current (s.fetched.beforeWrite s.current a) = none :=
      (decodeFault_congr s.current (by simp) (by simp) (by simp)).trans range
    have fault := step_of_literalTarget (s := s.fetched.beforeWrite s.current a) (a := a) (by rwa [current])
      (by simpa using skip) (by rwa [current]) (by rwa [current]) (by rwa [current])
    refine ⟨_, fault, congrArg (fun i : Instr => i.first.code) current.symm, ?_, nofun⟩
    simp [current, BitVec.add_assoc]

end

end Sys2Proof.Machine
end

/-! ### Proofs: the host's ports (50_interfaces.md) -/

section
namespace Sys2Proof.Machine

/-! Repeated steps. -/

section
variable {s s1 : State} (n : Nat)

/-! The host's run of any machine, one step at a time. -/

theorem run_of_next {M : Host.Core} {m m1 : M.State} (h : M.step m = .next m1) : M.run (n + 1) m = M.run n m1 := by
  rw [Host.Core.run, h]

theorem run_of_fault {M : Host.Core} {m : M.State} {f : M.Fault} (h : M.step m = .fault f) :
    M.run (n + 1) m = .fault f := by
  rw [Host.Core.run, h]

theorem core_run_of_next (h : step s = .next s1) : Sys2Proof.core.run (n + 1) s = Sys2Proof.core.run n s1 :=
  run_of_next (M := Sys2Proof.core) n h

theorem core_run_of_fault {f : Fault} (h : step s = .fault f) : Sys2Proof.core.run (n + 1) s = .fault f :=
  run_of_fault (M := Sys2Proof.core) n h

/-- A step completes or faults: there is no refusal. -/
theorem step_cases (s : State) : (∃ s1, step s = .next s1) ∨ ∃ f, step s = .fault f := by
  cases h : step s with
  | next s1 => exact .inl ⟨s1, rfl⟩
  | fault f => exact .inr ⟨f, rfl⟩
  | refused r => exact absurd h (step_ne_refused r)

end

/-- Steps that all complete, or the first of them that faults. -/
theorem core_run_cases (n : Nat) (s : State) :
    (∃ s' : State, Sys2Proof.core.run n s = .next s') ∨
      ∃ (k : Nat) (m : State) (f : Fault), k < n ∧ Sys2Proof.core.run k s = .next m ∧ step m = .fault f := by
  induction n generalizing s with
  | zero => exact .inl ⟨s, rfl⟩
  | succ n ih =>
    obtain ⟨s1, h⟩ | ⟨f, h⟩ := step_cases s
    · obtain ⟨s', done⟩ | ⟨k, m, f, hk, run, fault⟩ := ih s1
      · exact .inl ⟨s', (core_run_of_next n h).trans done⟩
      · exact .inr ⟨k + 1, m, f, Nat.succ_lt_succ hk, (core_run_of_next k h).trans run, fault⟩
    · exact .inr ⟨0, s, f, Nat.succ_pos n, rfl, h⟩

/-- Steps that all complete are all done, and the schedule is as it was (R171). -/
theorem runSteps_of_core_run {n : Nat} {s s' : State} (h : Sys2Proof.core.run n s = .next s') :
    runSteps n s = (s', .done) ∧ s'.running = s.running := by
  induction n generalizing s with
  | zero =>
    cases h
    exact ⟨rfl, rfl⟩
  | succ n ih =>
    obtain ⟨s1, h1⟩ | ⟨f, h1⟩ := step_cases s
    · obtain ⟨done, running⟩ := ih ((core_run_of_next n h1).symm.trans h)
      exact ⟨(runSteps_of_next h1 n).trans done, running.trans (step_running h1)⟩
    · exact nomatch (core_run_of_fault n h1).symm.trans h

/-- The first fault ends the steps, wherever it falls (R171). -/
theorem runSteps_of_core_run_fault {n k : Nat} {s m : State} {f : Fault} (hk : k < n)
    (run : Sys2Proof.core.run k s = .next m) (fault : step m = .fault f) :
    runSteps n s = (f.left.setRunning false, .faulted f) := by
  obtain ⟨n, rfl⟩ : ∃ j, n = j + 1 := ⟨n - 1, by omega⟩
  induction k generalizing n s with
  | zero =>
    cases run
    exact runSteps_of_fault fault n
  | succ k ih =>
    obtain ⟨s1, h1⟩ | ⟨g, h1⟩ := step_cases s
    · obtain ⟨j, rfl⟩ : ∃ j, n = j + 1 := ⟨n - 1, by omega⟩
      rw [runSteps_of_next h1]
      exact ih ((core_run_of_next k h1).symm.trans run) j (by omega)
    · exact nomatch (core_run_of_fault k h1).symm.trans run

/-- No more than `n` steps are counted: a fault counts none, and neither does what follows it (R170). -/
theorem runSteps_steps_le (n : Nat) (s : State) : (runSteps n s).1.steps ≤ s.steps + n := by
  induction n generalizing s with
  | zero => exact Nat.le_refl _
  | succ n ih =>
    obtain ⟨s1, h⟩ | ⟨f, h⟩ := step_cases s
    · have counted := (completedStepsAreCountedAndNotified.1 s s1 h).1
      have rest := ih s1
      rw [runSteps_of_next h]
      omega
    · have counted : f.left.steps = s.steps := (completedStepsAreCountedAndNotified.2 s f h).1
      rw [runSteps_of_fault h, State.setRunning_steps]
      omega

/-- Steps of a running machine end its run exactly when they report a fault (R171, R176). -/
theorem runSteps_ends_run_iff (n : Nat) {s : State} (running : s.running = true) :
    (runSteps n s).1.running = false ↔ ∃ f : Fault, (runSteps n s).2 = .faulted f := by
  obtain ⟨s', run⟩ | ⟨k, m, f, hk, run, fault⟩ := core_run_cases n s
  · obtain ⟨done, kept⟩ := runSteps_of_core_run run
    simp [done, kept, running]
  · simp [runSteps_of_core_run_fault hk run fault]

/-! Commands. -/

theorem control_batch_idle {s : State} (idle : s.running = false) (n : Nat) : control (.batch n) s = (s, .done) :=
  if_neg (by simp [idle])

theorem control_batch_running {s : State} (running : s.running = true) (n : Nat) :
    control (.batch n) s = runSteps (min n Config.batchSteps) s := if_pos running

/-- Settles O45: a batch of a running machine is `runSteps`, whose steps all complete or fault at a first place. -/
theorem batchIsTheRepeatedStep : Obligations.BatchIsTheRepeatedStep := by
  intro n s steps
  refine ⟨fun idle => control_batch_idle idle n, fun running s' run => ?_, fun running k m f hk run fault => ?_,
    core_run_cases steps s, fun running => ?_, fun f reported => ?_⟩
  · obtain ⟨done, kept⟩ := runSteps_of_core_run run
    exact ⟨(control_batch_running running n).trans done, kept.trans running⟩
  · exact (control_batch_running running n).trans (runSteps_of_core_run_fault hk run fault)
  · rw [control_batch_running running]
    exact runSteps_steps_le steps s
  · cases running : s.running with
    | false => rwa [control_batch_idle running]
    | true =>
      rw [control_batch_running running] at reported ⊢
      exact (runSteps_ends_run_iff steps running).2 ⟨f, reported⟩

/-- A read, a write and MemReset change memory and the trace only; a load is made of writes. -/
theorem control_keeps_but_steps {P : State → Prop}
    (frame : ∀ (s : State) (m : Memory) (es : List Event), P s → P { s with mem := m, trace := s.trace ++ es })
    {c : Command} {s : State} (hs : P s) (step : c ≠ .step) (batch : ∀ n, c ≠ .batch n) (run : c ≠ .run)
    (stop : c ≠ .stop) : P (control c s).1 := by
  have write_keeps (a v : Word) (s : State) (hs : P s) : P ((s.poke a.toNat v).publish (.wr a v)) :=
    frame s _ [.wr a v] hs
  cases c with
  | step => exact absurd rfl step
  | batch n => exact absurd rfl (batch n)
  | run => exact absurd rfl run
  | stop => exact absurd rfl stop
  | read a =>
    by_cases ha : a < Config.capacity
    · rw [control_read_ok ha]
      exact frame s s.mem [_] hs
    · rw [control_read_error (Nat.le_of_not_lt ha)]
      exact hs
  | write a v => exact memWrite_keeps write_keeps a v hs
  | memReset => simpa [control, memReset] using frame s [] [] hs
  | load p => exact loadFrom_keeps write_keeps p 0 hs

/-- Settles O46: run and stop change the schedule only, the others memory and the trace only. -/
theorem hostCommandsLeaveTheCpuAlone : Obligations.HostCommandsLeaveTheCpuAlone := by
  intro c s step batch
  by_cases run : c = .run
  · subst run; rfl
  by_cases stop : c = .stop
  · subst stop; rfl
  exact control_keeps_but_steps (P := fun t => t.inspect = s.inspect) (fun _ _ _ h => h) rfl step batch run stop

/-- Settles O48: the commands that step by whether they report a fault, and of the others only stop writes the schedule
to inactive. -/
theorem onlyStopOrAFaultEndsARun : Obligations.OnlyStopOrAFaultEndsARun := by
  intro c s running
  have keeps (step : c ≠ .step) (batch : ∀ n, c ≠ .batch n) (run : c ≠ .run) (stop : c ≠ .stop) :
      (control c s).1.running = true :=
    control_keeps_but_steps (P := fun t => t.running = true) (fun _ _ _ h => h) running step batch run stop
  cases c with
  | step => simpa [show control .step s = runSteps 1 s from rfl] using runSteps_ends_run_iff 1 running
  | batch n =>
    rw [control_batch_running running]
    simpa using runSteps_ends_run_iff (min n Config.batchSteps) running
  | run => simp [control]
  | stop => simp [control]
  | read | write | memReset | load => simp [keeps nofun nofun nofun nofun]

/-- Settles O44: both commands are one update of the schedule, by definition. -/
theorem stopAndRunChangeOnlyTheSchedule : Obligations.StopAndRunChangeOnlyTheSchedule := fun _ =>
  ⟨rfl, rfl, rfl, rfl⟩

/-- Settles O47: a step command is one step, and a batch of at least one meets the fault at its first. -/
theorem faultIsReportedAndEndsTheRun : Obligations.FaultIsReportedAndEndsTheRun := by
  refine ⟨fun s s' h => runSteps_of_next h 0, fun s f h => ⟨runSteps_of_fault h 0, fun n hn running => ?_, fun n => ?_⟩⟩
  · have first : 0 < min n Config.batchSteps := Nat.lt_min.2 ⟨hn, Nat.succ_pos _⟩
    exact (control_batch_running running n).trans (runSteps_of_core_run_fault first rfl h)
  · exact control_batch_idle rfl n

/-! The self-jump (R176). -/

/-- The state after `n` more steps of a self-jump: the counts and the trace have moved. -/
def State.afterSelfJumps (s : State) (n : Nat) : State :=
  { s with
    steps := s.steps + n
    notified := s.notified + n
    trace := s.trace ++ (List.replicate n (.rd s.pc (s.mem.load s.pc.toNat) :: instrReads s.current s)).flatten }

theorem State.selfJump_iff {s : State} : s.selfJump = true ↔
    ∃ a : Operand, s.current = .set .pc a ∧ s.skip = false ∧ operandFault a 1 s = none ∧ operandValue a 1 s = s.pc ∧
      stackDelta a = 0 := by
  unfold selfJump
  constructor
  · intro h
    split at h
    next a source => exact ⟨a, by simpa [and_assoc] using h⟩
    next => cases h
  · rintro ⟨a, current, h⟩
    simpa [current, Instr.second, and_assoc] using h

theorem afterSelfJumps_succ (s : State) (n : Nat) :
    (s.afterSelfJumps 1).afterSelfJumps n = s.afterSelfJumps (n + 1) := by
  have reads : instrReads s.current (s.afterSelfJumps 1) = instrReads s.current s :=
    instrReads_congr s.current ⟨rfl, rfl, rfl, rfl⟩
  refine State.eq_of_fields rfl rfl rfl rfl rfl ?_ rfl ?_ ?_ rfl
  · exact Nat.add_right_comm s.steps 1 n
  · show _ ++ (List.replicate n (_ :: instrReads s.current (s.afterSelfJumps 1))).flatten = _
    rw [reads]
    simp [State.afterSelfJumps, List.replicate_succ]
  · exact Nat.add_right_comm s.notified 1 n

/-- Nothing that makes a state a self-jump is changed by the counts and the trace. -/
theorem selfJump_afterSelfJumps {s : State} (h : s.selfJump = true) (n : Nat) : (s.afterSelfJumps n).selfJump = true := by
  obtain ⟨a, current, skip, range, value, delta⟩ := State.selfJump_iff.1 h
  have same : (s.afterSelfJumps n).sameOperands s := ⟨rfl, rfl, rfl, rfl⟩
  exact State.selfJump_iff.2 ⟨a, current, skip, (operandFault_congr a 1 rfl rfl rfl).trans range,
    (operandValue_congr a 1 same fun _ => rfl).trans value, delta⟩

/-- One step of a self-jump writes to PC the value it has. -/
theorem step_selfJump {s : State} (h : s.selfJump = true) : step s = .next (s.afterSelfJumps 1) := by
  obtain ⟨a, current, skip, range, value, delta⟩ := State.selfJump_iff.1 h
  have done := exec_writer (i := .set .pc a) (a := a) (s := s.fetched) ((decodeFault_fetched _ s).trans range) skip rfl rfl
    rfl
  have pc : sourceValue (.set .pc a) s.fetched = s.pc := (sourceValue_fetched _ s).trans value
  rw [step_eq_exec_current, current, done, pc]
  refine congrArg Host.Outcome.next (State.eq_of_fields rfl ?_ rfl rfl rfl rfl rfl ?_ rfl rfl)
  · show s.sp + 0 + stackDelta a = s.sp
    simp [delta]
  · show s.trace ++ [_] ++ instrReads (.set .pc a) s.fetched = _
    simp [State.afterSelfJumps, current]

/-- Settles O49, by induction on the number of steps. -/
theorem selfJumpKeepsSteppingAndChangesOnlyTheCountsAndTrace :
    Obligations.SelfJumpKeepsSteppingAndChangesOnlyTheCountsAndTrace := by
  intro s n h
  refine ⟨s.afterSelfJumps n, ?_, selfJump_afterSelfJumps h n, rfl⟩
  induction n generalizing s with
  | zero =>
    show Host.Outcome.next s = .next (s.afterSelfJumps 0)
    simp [State.afterSelfJumps]
  | succ n ih =>
    rw [core_run_of_next n (step_selfJump h), ih _ (selfJump_afterSelfJumps h 1), afterSelfJumps_succ]

end Sys2Proof.Machine
end
